-- ==== Sys2Proof/Word.lean ====
section
/-! DEFINITION. The Word of the machine (00_scope.md R8, R11) and the byte of its output stream. -/

namespace Sys2Proof

/-- A Word: 16 bits, arithmetic modulo 2^16 (R8, R11). Bit 0 is the least significant (R10). -/
abbrev Word := BitVec 16

/-- A byte of the output stream, 0 to 255 (R16, R53). -/
abbrev Byte := BitVec 8

end Sys2Proof
end

