-- ==== Sys2Proof/Config.lean ====
section
/-! DEFINITION. The parameters the spec leaves to the launch, the environment or the implementation (00_scope.md R9).
An opaque constant has no body: nothing in Lean can say what its value is, so a theorem about it holds for every value. -/

namespace Sys2Proof

/-- ORIGIN at `State.reset`, before any load: a launch parameter in the spec (R9, R39). DESIGN CHOICE 0x3000, the address
the spec's examples use; unsafe (log entry 1). `State.launch` takes any ORIGIN. -/
def Config.origin : Word := 0x3000#16

/-- KEY (R9, R16, R66): the environment's answer to each KeyPoll, by the number of the draw; none is "no key now". There is one for every
number, so the environment may answer for ever, and when it finds a key is open (D10). Free value; log entry 2. -/
opaque Config.keyAnswer : Nat → Option Word

/-- INPUT (R9, R16, R211): the environment's answer to each ConsoleRead, by the number of the draw; none is a read it never answers (R127).
Nothing says that it answers (R278). Free value; log entry 3. -/
opaque Config.inputAnswer : Nat → Option Word

/-- IN_PROMPT (R9, R217): the bytes IN writes before it reads. Free value; log entry 4. -/
opaque Config.inPrompt : List Byte

/-- HALT_MESSAGE (R9, R219): the bytes HALT writes, possibly none. Free value; log entry 5. -/
opaque Config.haltMessage : List Byte

/-- STOP_EXIT_STATUS (R9, R252): the process exit status after a host stop. Free value; log entry 6. -/
opaque Config.stopExitStatus : Nat

/-- The distinguished error status less one, so that the status itself is not zero (R252). Free value; log entry 6. -/
opaque Config.errorExitStatusPred : Nat

end Sys2Proof
end

