-- ==== Sys2Proof/Machine/State.lean ====
section
/-! DEFINITION. The state of the CORE (10_state.md R54) as plain data, the reasons a step can stop, and the state after
reset (70_reset_and_hazards.md R272). -/

namespace Sys2Proof.Machine

/-- The register_file: R0 to R7 (10_state.md R30). -/
structure RegFile where
  r0 : Word
  r1 : Word
  r2 : Word
  r3 : Word
  r4 : Word
  r5 : Word
  r6 : Word
  r7 : Word
  deriving DecidableEq, Repr

/-- The condition_flag_register: N, Z, P (10_state.md R40). The reset value 000 sets none, so the three are separate bits. -/
structure NZP where
  n : Bool
  z : Bool
  p : Bool
  deriving DecidableEq, Repr

/-- The run state (10_state.md R46). HALTED, ERROR and STOPPED are terminal. -/
inductive RunState where
  | running
  | halted
  | error
  | stopped
  deriving DecidableEq, Repr

/-- The two fatal conditions (60_exceptions.md R240). -/
inductive ErrorKind where
  | illegalOpcode
  | illegalTrap
  deriving DecidableEq, Repr

/-- The error record (10_state.md R47): the kind, the address the instruction was fetched from and its raw word. -/
structure ErrorRecord where
  kind : ErrorKind
  addr : Word
  word : Word
  deriving DecidableEq, Repr

/-- Memory (20_memory.md R60): the cells that do not hold 0x0000, as (address, Word) pairs in rising order of address. The cell is
the Word, the smallest addressable unit. -/
abbrev Memory := List (Nat × Word)

/-- How far the draws from one of the environment's two answerers have come (10_state.md R53): the answers already settled, first first,
and after them the number of the next free draw. The MODEL's own; `known` lets a premise or a test settle the next answers (log entries 2, 3). -/
structure Draws where
  known : List (Option Word)
  drawn : Nat
  deriving DecidableEq, Repr

/-- The state of the CORE (10_state.md R54), and after it how far the environment's draws have come, which are the model's own fields. -/
structure State where
  /-- R0 to R7 (R30). -/
  regs : RegFile
  /-- The program counter (R35); during an instruction's execution, the post-increment value (R36). -/
  pc : Word
  /-- N, Z, P (R40). -/
  nzp : NZP
  /-- The 65536 Words, the keyboard registers 0xFE00 and 0xFE02 among them (R50, R51). -/
  mem : Memory
  /-- The run state (R46). -/
  run : RunState
  /-- The error record, present when `run` is ERROR (R47). -/
  err : Option ErrorRecord
  /-- The host's stop request (R48). -/
  stopReq : Bool
  /-- The output stream (R53). -/
  out : List Byte
  /-- The MODEL's own: the draws of KeyPoll (R66; log entry 2). -/
  keys : Draws
  /-- The MODEL's own: the draws of ConsoleRead (R211; log entry 3). -/
  input : Draws
  deriving DecidableEq, Repr

/-- Why the machine has no next step. -/
inductive Fault where
  /-- Raised by `step` when `run` is terminal: such a state has no step (40_fetch_cycle.md R126). Safe: the spec gives none. -/
  | runEnded (run : RunState)
  /-- Raised by GETC and IN (and TRAP with their codes) when the environment never answers the read: the step waits for ever (40_fetch_cycle.md
  R127, 93_implementation_defined.md U10). `out` is the output when the wait begins, IN's prompt included. Safe: no next state exists. -/
  | waitsForInput (out : List Byte)
  /-- Raised by PUTS and PUTSP (and TRAP with their codes) when the scan never meets its end (44_trap.md R221,
  93_implementation_defined.md U9). Safe for claims about next states; the bytes the endless scan writes are not shown (log entry 9). -/
  | neverEnds
  deriving DecidableEq, Repr

/-- Why an instruction has no meaning in the model. -/
inductive Refusal where
  /-- Raised by `exec` for an instruction not modelled yet; no arm raises it now. Safe: nothing follows from it. -/
  | notModelled (mnemonic : String)
  deriving DecidableEq, Repr

/-- The state when the run loop starts (70_reset_and_hazards.md R272), with no image loaded: a program is placed from outside
(`State.launch`). PC: ORIGIN (log entry 1). No answer of the environment is settled: every draw from here on is free (log entries 2, 3). -/
def State.reset : State where
  regs := ⟨0#16, 0#16, 0#16, 0#16, 0#16, 0#16, 0#16, 0#16⟩
  pc := Config.origin
  nzp := ⟨false, false, false⟩
  mem := []
  run := .running
  err := none
  stopReq := false
  out := []
  keys := ⟨[], 0⟩
  input := ⟨[], 0⟩

end Sys2Proof.Machine
end

