-- ==== Sys2Proof/Syntax.lean ====
section
/-! DEFINITION. The register names and the instructions: one constructor per row of spec/opcode_table.json. -/

namespace Sys2Proof

/-- The general registers R0 to R7 (10_state.md R30), named by a 3-bit field (30_encoding.md R92). -/
inductive Reg where
  | r0 | r1 | r2 | r3 | r4 | r5 | r6 | r7
  deriving DecidableEq, Repr

/-- The decoded instructions (30_encoding.md R108). Immediates and offsets are the raw fields; the meanings sign-extend them
(R101). The alias rows RET and GETC to HALT have constructors of their own, to which the words of JMP with BaseR = R7 and of
TRAP with codes 0x20 to 0x25 decode (log entry 8). -/
inductive Instr where
  /-- ADD, register form (R141). -/
  | addReg (dr sr1 sr2 : Reg)
  /-- ADD, immediate form (R142). -/
  | addImm (dr sr1 : Reg) (imm5 : BitVec 5)
  /-- AND, register form (R143). -/
  | andReg (dr sr1 sr2 : Reg)
  /-- AND, immediate form (R144). -/
  | andImm (dr sr1 : Reg) (imm5 : BitVec 5)
  /-- NOT (R145). -/
  | not (dr sr : Reg)
  /-- BR with its condition bits (R160). -/
  | br (n z p : Bool) (off9 : BitVec 9)
  /-- JMP (R162). -/
  | jmp (base : Reg)
  /-- RET, JMP with BaseR = R7 (R163). -/
  | ret
  /-- JSR (R165). -/
  | jsr (off11 : BitVec 11)
  /-- JSRR (R166). -/
  | jsrr (base : Reg)
  /-- LD (R181). -/
  | ld (dr : Reg) (off9 : BitVec 9)
  /-- LDI (R182). -/
  | ldi (dr : Reg) (off9 : BitVec 9)
  /-- LEA (R184). -/
  | lea (dr : Reg) (off9 : BitVec 9)
  /-- ST (R185). -/
  | st (sr : Reg) (off9 : BitVec 9)
  /-- STI (R186). -/
  | sti (sr : Reg) (off9 : BitVec 9)
  /-- LDR (R183). -/
  | ldr (dr base : Reg) (off6 : BitVec 6)
  /-- STR (R187). -/
  | str (sr base : Reg) (off6 : BitVec 6)
  /-- TRAP (R210). `ignored` is bits 11:8, which no effect of the instruction reads but the error record's raw word (R220,
  R241; log entry 7). -/
  | trap (ignored : BitVec 4) (vect : BitVec 8)
  /-- GETC, TRAP x20 (R214). -/
  | getc
  /-- OUT, TRAP x21 (R215). -/
  | out
  /-- PUTS, TRAP x22 (R216). -/
  | puts
  /-- IN, TRAP x23 (R217). -/
  | inChar
  /-- PUTSP, TRAP x24 (R218). -/
  | putsp
  /-- HALT, TRAP x25 (R219). -/
  | halt
  /-- A word of opcode 0x8, with its bits 11:0 for the error record (R104, R242). -/
  | illegal8 (rest : BitVec 12)
  /-- A word of opcode 0xD, with its bits 11:0 for the error record (R104, R242). -/
  | illegalD (rest : BitVec 12)
  deriving DecidableEq, Repr

end Sys2Proof
end

