-- ==== Sys2Proof/Machine/Ops.lean ====
section
/-! DEFINITION. The named operations every meaning uses: registers, memory and its two device registers, the console, the
two ways a run ends inside a step, the entry of a TRAP, the string scan, the fetch and the stop. -/

namespace Sys2Proof.Machine

/-! ### Registers (10_state.md R30) -/

/-- The Word a register holds. -/
def RegFile.get (f : RegFile) : Reg → Word
  | .r0 => f.r0
  | .r1 => f.r1
  | .r2 => f.r2
  | .r3 => f.r3
  | .r4 => f.r4
  | .r5 => f.r5
  | .r6 => f.r6
  | .r7 => f.r7

/-- The register file with one register written. -/
def RegFile.set (f : RegFile) (r : Reg) (v : Word) : RegFile :=
  match r with
  | .r0 => { f with r0 := v }
  | .r1 => { f with r1 := v }
  | .r2 => { f with r2 := v }
  | .r3 => { f with r3 := v }
  | .r4 => { f with r4 := v }
  | .r5 => { f with r5 := v }
  | .r6 => { f with r6 := v }
  | .r7 => { f with r7 := v }

/-- `x[r]` (00_scope.md R13). -/
def State.reg (s : State) (r : Reg) : Word := s.regs.get r

/-- `x[r] <- v` (00_scope.md R13). -/
def State.setReg (s : State) (r : Reg) (v : Word) : State := { s with regs := s.regs.set r v }

/-- `pc <- v` (00_scope.md R13). -/
def State.setPc (s : State) (v : Word) : State := { s with pc := v }

/-! ### The cells of memory (20_memory.md R60) -/

/-- What the list holds at an address; an unlisted address reads as 0x0000 (10_state.md R52). -/
def Memory.read : Memory → Word → Word
  | [], _ => 0#16
  | (k, v) :: rest, a => if k = a.toNat then v else Memory.read rest a

/-- The list with an address's entry put in its place, or taken out where the Word is 0x0000. -/
def Memory.write : Memory → Word → Word → Memory
  | [], a, v => if v = 0#16 then [] else [(a.toNat, v)]
  | (k, u) :: rest, a, v =>
    if k < a.toNat then (k, u) :: Memory.write rest a v
    else
      let tail := if k = a.toNat then rest else (k, u) :: rest
      if v = 0#16 then tail else (a.toNat, v) :: tail

/-- The canonical form, for a list whose addresses are all at least `lo`: addresses rise strictly and lie below 65536, and no entry
holds 0x0000. -/
def Memory.wfFrom : Nat → Memory → Bool
  | _, [] => true
  | lo, (k, v) :: rest => decide (lo ≤ k) && decide (k < 65536) && decide (v ≠ 0#16) && Memory.wfFrom (k + 1) rest

/-- The canonical form of memory. -/
def Memory.wf (m : Memory) : Bool := Memory.wfFrom 0 m

/-- `mem[a]` (00_scope.md R13): the stored Word, with no device effect. -/
def State.cell (s : State) (a : Word) : Word := s.mem.read a

/-- `mem[a] <- v` (00_scope.md R13). -/
def State.setCell (s : State) (a v : Word) : State := { s with mem := s.mem.write a v }

/-! ### The environment's draws (10_state.md R53) -/

/-- One draw: the settled answer where there is one, and the environment's free answer of that number otherwise. -/
def Draws.next (free : Nat → Option Word) (d : Draws) : Option Word × Draws :=
  match d.known with
  | [] => (free d.drawn, { d with drawn := d.drawn + 1 })
  | a :: rest => (a, { d with known := rest })

/-- The answer the next KeyPoll draws. -/
def State.nextKey (s : State) : Option Word := (s.keys.next Config.keyAnswer).1

/-- The draws of KeyPoll after the next one. -/
def State.keysAfter (s : State) : Draws := (s.keys.next Config.keyAnswer).2

/-- The answer the next ConsoleRead draws. -/
def State.nextInput (s : State) : Option Word := (s.input.next Config.inputAnswer).1

/-- The draws of ConsoleRead after the next one. -/
def State.inputAfter (s : State) : Draws := (s.input.next Config.inputAnswer).2

/-! ### The keyboard and the memory primitives (20_memory.md R63 to R68) -/

/-- The keyboard-status register's address (R63). -/
def kbsr : Word := 0xFE00#16

/-- The keyboard-data register's address (R63). -/
def kbdr : Word := 0xFE02#16

/-- Plain storage: an address that is not a device register (R63). -/
abbrev Plain (a : Word) : Prop := a ≠ kbsr ∧ a ≠ kbdr

/-- `KeyPoll()` (00_scope.md R16): the environment's answer, drawn at this poll. -/
def State.keyPoll (s : State) : Option Word × State := (s.nextKey, { s with keys := s.keysAfter })

/-- The poll (R66): a key sets availability and the buffered code, no key changes nothing. -/
def State.poll (s : State) : State :=
  match s.keyPoll with
  | (some k, s') => (s'.setCell kbsr 0x8000#16).setCell kbdr k
  | (none, s') => s'

/-- What a read of the data register leaves: bit 15 of the status register cleared, nothing else (R67). -/
def State.clearAvailable (s : State) : State := s.setCell kbsr (s.cell kbsr &&& 0x7FFF#16)

/-- `MemRead(a, 1)` (R64, R65, R67): the Word read and the state after the read's side effects. -/
def State.memRead (s : State) (a : Word) : Word × State :=
  if a = kbsr then (s.poll.cell kbsr, s.poll)
  else if a = kbdr then (s.cell kbdr, s.clearAvailable)
  else (s.cell a, s)

/-- `MemWrite(a, 1, v)` (R68): a plain write, at the device addresses too. -/
def State.memWrite (s : State) (a v : Word) : State := s.setCell a v

/-! ### The console (44_trap.md R211, R212) -/

/-- Bits 7:0 of a Word. -/
def lowByte (w : Word) : Byte := w.extractLsb' 0 8

/-- Bits 15:8 of a Word. -/
def highByte (w : Word) : Byte := w.extractLsb' 8 8

/-- `ConsoleWrite` of each byte in turn (R212). -/
def State.consoleWrite (s : State) (bs : List Byte) : State := { s with out := s.out ++ bs }

/-- `ConsoleRead()` (R211): the Word the environment answers this read with, or none where it never answers. It does not touch the keyboard
registers. -/
def State.consoleRead (s : State) : Option (Word × State) :=
  s.nextInput.map fun c => (c, { s with input := s.inputAfter })

/-! ### The ends of a run, and the entry of a TRAP -/

/-- `raise FatalError(kind, addr, word)` (60_exceptions.md R241), the one way an error is taken: `run` and `err`, nothing else. During
execution the PC is the post-increment value, so the fetch address is the PC minus 1. There is no return from it (ERROR is terminal). -/
def State.raiseFatal (s : State) (kind : ErrorKind) (word : Word) : State :=
  { s with run := .error, err := some ⟨kind, s.pc - 1#16, word⟩ }

/-- Entry of a TRAP (60_exceptions.md R247, 44_trap.md R210): the post-increment PC is saved in R7 and nothing else changes. The return is
implicit (R248): no routine writes the PC, so the next fetch is at the post-increment PC. -/
def State.trapEntry (s : State) : State := s.setReg .r7 s.pc

/-- `halt` (00_scope.md R15): the run ends in HALTED. -/
def State.haltRun (s : State) : State := { s with run := .halted }

/-- The stop inspection found a request (40_fetch_cycle.md R121): the run ends in STOPPED, nothing else changes. -/
def State.stopRun (s : State) : State := { s with run := .stopped }

/-- The host's action `stopReq <- true` (60_exceptions.md R250), between steps. -/
def State.requestStop (s : State) : State := { s with stopReq := true }

/-! ### The fetch (40_fetch_cycle.md R122) -/

/-- The instruction Word read at the PC through the side-effecting read, and the state with the PC incremented. -/
def State.fetch (s : State) : Word × State :=
  let r := s.memRead s.pc
  (r.1, r.2.setPc (s.pc + 1#16))

/-! ### The string scan of PUTS and PUTSP (44_trap.md R216, R218) -/

/-- What PUTS does with one Word (R216): the bytes it writes and whether the scan goes on. -/
def unpackPuts (w : Word) : List Byte × Bool :=
  if w = 0#16 then ([], false) else ([lowByte w], true)

/-- What PUTSP does with one Word (R218): low byte, then high byte, ending at the first zero byte. -/
def unpackPutsp (w : Word) : List Byte × Bool :=
  if lowByte w = 0#8 then ([], false)
  else if highByte w = 0#8 then ([lowByte w], false)
  else ([lowByte w, highByte w], true)

/-- The scan loop from address `a`, through `MemRead`, cut off after `fuel` reads: the state when it ends, or none where it has not ended by
then. -/
def scanString (unpack : Word → List Byte × Bool) : Nat → Word → State → Option State
  | 0, _, _ => none
  | fuel + 1, a, s =>
    let r := s.memRead a
    let s' := r.2.consoleWrite (unpack r.1).1
    if (unpack r.1).2 then scanString unpack fuel (a + 1#16) s' else some s'

/-- The scan loop as the spec writes it, with no bound: the state when it ends, or none where it never does (R221). The environment may answer
its polls for ever, so no number of reads bounds it; it is the least fixed point of its equation (log entry 19). -/
def scanLoop (unpack : Word → List Byte × Bool) (a : Word) (s : State) : Option State :=
  let r := s.memRead a
  let s' := r.2.consoleWrite (unpack r.1).1
  if (unpack r.1).2 then scanLoop unpack (a + 1#16) s' else some s'
partial_fixpoint

/-- The loop run to its end, or none where it has none. Two rounds of memory are tried by structural recursion first, which Lean's kernel can
evaluate; they are the same loop. -/
def scanToEnd (unpack : Word → List Byte × Bool) (a : Word) (s : State) : Option State :=
  match scanString unpack 131072 a s with
  | some t => some t
  | none => scanLoop unpack a s

/-! ### Placing an instruction -/

/-- The state with an instruction's Word stored at the PC, where the next fetch reads it. -/
def State.placeWord (s : State) (w : Word) : State := s.setCell s.pc w

end Sys2Proof.Machine
end

