-- ==== Sys2Proof/Machine/Flags.lean ====
section
/-! DEFINITION. The condition_flag_register (10_state.md R40 to R44): how a result sets N, Z, P, and the branch test that
reads them. -/

namespace Sys2Proof.Machine

/-- The flag state of a result (00_scope.md R17): N when bit 15 is 1, Z when the Word is 0x0000, P otherwise. -/
def flagsOf (v : Word) : NZP :=
  if v.getLsbD 15 then ⟨true, false, false⟩
  else if v = 0#16 then ⟨false, true, false⟩
  else ⟨false, false, true⟩

/-- `setcc(v)` (R17). -/
def State.setcc (s : State) (v : Word) : State := { s with nzp := flagsOf v }

/-- A result written to its register, with the flags set from it (10_state.md R41). -/
def State.setResult (s : State) (dr : Reg) (v : Word) : State := (s.setReg dr v).setcc v

/-- The branch test (42_control.md R160): a condition bit of the instruction meets the flag that is set. -/
def branchTest (n z p : Bool) (f : NZP) : Bool := (n && f.n) || (z && f.z) || (p && f.p)

end Sys2Proof.Machine
end

