-- ==== Sys2Proof/Machine/Operands.lean ====
section
/-! DEFINITION. Operand assembly (30_encoding.md R101) and the effective addresses of the load_store_unit and fetch_unit
(43_load_store.md R180). Every sum is modulo 2^16. -/

namespace Sys2Proof.Machine

/-- `sext_16(f)` (00_scope.md R12). -/
def sext {k : Nat} (f : BitVec k) : Word := f.signExtend 16

/-- PC-relative: the post-increment PC plus the sign-extended offset (R180; 42_control.md R160, R165). -/
def pcRelative {k : Nat} (s : State) (off : BitVec k) : Word := s.pc + sext off

/-- Base plus offset (R180). -/
def baseOffset (s : State) (base : Reg) (off6 : BitVec 6) : Word := s.reg base + sext off6

/-- Indirect: the pointer read at the PC-relative address, and the state after that read (R180). -/
def indirect (s : State) (off9 : BitVec 9) : Word × State := s.memRead (pcRelative s off9)

end Sys2Proof.Machine
end

