-- ==== Sys2Proof/Machine/Control.lean ====
section
/-! DEFINITION. Control transfer: BR, JMP, RET, JSR, JSRR (42_control.md). `s.pc` is the post-increment PC. -/

namespace Sys2Proof.Machine

/-- BR (R160). -/
def execBr (n z p : Bool) (off9 : BitVec 9) (s : State) : Host.Outcome State Fault Refusal :=
  .next (if branchTest n z p s.nzp then s.setPc (pcRelative s off9) else s)

/-- JMP (R162). -/
def execJmp (base : Reg) (s : State) : Host.Outcome State Fault Refusal :=
  .next (s.setPc (s.reg base))

/-- RET (R163): JMP with BaseR = R7. -/
def execRet (s : State) : Host.Outcome State Fault Refusal :=
  .next (s.setPc (s.reg .r7))

/-- JSR (R165). -/
def execJsr (off11 : BitVec 11) (s : State) : Host.Outcome State Fault Refusal :=
  .next ((s.setReg .r7 s.pc).setPc (pcRelative s off11))

/-- JSRR (R166): R7 is written before BaseR is read, so JSRR R7 goes to the return address. -/
def execJsrr (base : Reg) (s : State) : Host.Outcome State Fault Refusal :=
  let linked := s.setReg .r7 s.pc
  .next (linked.setPc (linked.reg base))

end Sys2Proof.Machine
end

