-- ==== Sys2Proof/Machine/LoadStore.lean ====
section
/-! DEFINITION. Loads, stores and LEA (43_load_store.md). Every read is a `memRead` and every write a `memWrite`, so the device
registers have their side effects. -/

namespace Sys2Proof.Machine

/-- LD (R181). -/
def execLd (dr : Reg) (off9 : BitVec 9) (s : State) : Host.Outcome State Fault Refusal :=
  let r := s.memRead (pcRelative s off9)
  .next (r.2.setResult dr r.1)

/-- LDI (R182): two reads in order, each with its side effects. -/
def execLdi (dr : Reg) (off9 : BitVec 9) (s : State) : Host.Outcome State Fault Refusal :=
  let p := indirect s off9
  let r := p.2.memRead p.1
  .next (r.2.setResult dr r.1)

/-- LDR (R183): the base is read before DR is written. -/
def execLdr (dr base : Reg) (off6 : BitVec 6) (s : State) : Host.Outcome State Fault Refusal :=
  let r := s.memRead (baseOffset s base off6)
  .next (r.2.setResult dr r.1)

/-- LEA (R184): the address itself, no access; it sets the flags. -/
def execLea (dr : Reg) (off9 : BitVec 9) (s : State) : Host.Outcome State Fault Refusal :=
  .next (s.setResult dr (pcRelative s off9))

/-- ST (R185). -/
def execSt (sr : Reg) (off9 : BitVec 9) (s : State) : Host.Outcome State Fault Refusal :=
  .next (s.memWrite (pcRelative s off9) (s.reg sr))

/-- STI (R186): the pointer is read, with its side effects, before the write. -/
def execSti (sr : Reg) (off9 : BitVec 9) (s : State) : Host.Outcome State Fault Refusal :=
  let p := indirect s off9
  .next (p.2.memWrite p.1 (p.2.reg sr))

/-- STR (R187). -/
def execStr (sr base : Reg) (off6 : BitVec 6) (s : State) : Host.Outcome State Fault Refusal :=
  .next (s.memWrite (baseOffset s base off6) (s.reg sr))

end Sys2Proof.Machine
end

