-- ==== Sys2Proof/Machine/Operate.lean ====
section
/-! DEFINITION. The operate instructions ADD, AND, NOT (41_operate.md) and the alu_16bit (R140). -/

namespace Sys2Proof.Machine

/-- The alu's ADD: modulo 2^16, no carry or overflow output (R140, R146). -/
def aluAdd (a b : Word) : Word := a + b

/-- The alu's AND (R140). -/
def aluAnd (a b : Word) : Word := a &&& b

/-- The alu's NOT (R140). -/
def aluNot (a : Word) : Word := ~~~a

/-- ADD, register form (R141). -/
def execAddReg (dr sr1 sr2 : Reg) (s : State) : Host.Outcome State Fault Refusal :=
  .next (s.setResult dr (aluAdd (s.reg sr1) (s.reg sr2)))

/-- ADD, immediate form (R142). -/
def execAddImm (dr sr1 : Reg) (imm5 : BitVec 5) (s : State) : Host.Outcome State Fault Refusal :=
  .next (s.setResult dr (aluAdd (s.reg sr1) (sext imm5)))

/-- AND, register form (R143). -/
def execAndReg (dr sr1 sr2 : Reg) (s : State) : Host.Outcome State Fault Refusal :=
  .next (s.setResult dr (aluAnd (s.reg sr1) (s.reg sr2)))

/-- AND, immediate form (R144): the immediate is sign-extended first. -/
def execAndImm (dr sr1 : Reg) (imm5 : BitVec 5) (s : State) : Host.Outcome State Fault Refusal :=
  .next (s.setResult dr (aluAnd (s.reg sr1) (sext imm5)))

/-- NOT (R145). -/
def execNot (dr sr : Reg) (s : State) : Host.Outcome State Fault Refusal :=
  .next (s.setResult dr (aluNot (s.reg sr)))

end Sys2Proof.Machine
end

