-- ==== Sys2Proof/WellFormed.lean ====
section
/-! DEFINITION. Which instructions are the reading of some word. A field cannot be out of range (its type is its width), so
the checks are the two that keep one instruction from having two spellings. -/

namespace Sys2Proof

/-- The codes of the fixed trap table (30_encoding.md R99, R105). -/
def trapTable : List (BitVec 8) := [0x20#8, 0x21#8, 0x22#8, 0x23#8, 0x24#8, 0x25#8]

/-- JMP through R7 is spelled RET (R163), and a TRAP with a code of the table is spelled by its routine's name (R99). -/
def Instr.wellFormed : Instr → Bool
  | .jmp base => base ≠ .r7
  | .trap _ vect => vect ∉ trapTable
  | .addReg _ _ _ => true
  | .addImm _ _ _ => true
  | .andReg _ _ _ => true
  | .andImm _ _ _ => true
  | .not _ _ => true
  | .br _ _ _ _ => true
  | .ret => true
  | .jsr _ => true
  | .jsrr _ => true
  | .ld _ _ => true
  | .ldi _ _ => true
  | .lea _ _ => true
  | .st _ _ => true
  | .sti _ _ => true
  | .ldr _ _ _ => true
  | .str _ _ _ => true
  | .getc => true
  | .out => true
  | .puts => true
  | .inChar => true
  | .putsp => true
  | .halt => true
  | .illegal8 _ => true
  | .illegalD _ => true

end Sys2Proof
end

