-- ==== Sys2Proof/Decode.lean ====
section
/-! DEFINITION. The instruction_decoder (30_encoding.md R108, R109): a total function of one Word, and an encoder written
from the same formats (R93 to R99). -/

namespace Sys2Proof

/-- The register a 3-bit field names by its unsigned value (R92). -/
def regOfBits (b : BitVec 3) : Reg :=
  match b.toNat with
  | 0 => .r0
  | 1 => .r1
  | 2 => .r2
  | 3 => .r3
  | 4 => .r4
  | 5 => .r5
  | 6 => .r6
  | _ => .r7

/-- The 3-bit field that names a register (R92). -/
def bitsOfReg : Reg → BitVec 3
  | .r0 => 0
  | .r1 => 1
  | .r2 => 2
  | .r3 => 3
  | .r4 => 4
  | .r5 => 5
  | .r6 => 6
  | .r7 => 7

/-- DR, and SR of the stores: bits 11:9 (R91). -/
def fieldDR (w : Word) : Reg := regOfBits (w.extractLsb' 9 3)

/-- SR1, SR of NOT, and BaseR: bits 8:6 (R91). -/
def fieldBase (w : Word) : Reg := regOfBits (w.extractLsb' 6 3)

/-- SR2: bits 2:0 (R91). -/
def fieldSR2 (w : Word) : Reg := regOfBits (w.extractLsb' 0 3)

/-- imm5: bits 4:0 (R91). -/
def fieldImm5 (w : Word) : BitVec 5 := w.extractLsb' 0 5

/-- offset6: bits 5:0 (R91). -/
def fieldOff6 (w : Word) : BitVec 6 := w.extractLsb' 0 6

/-- PCoffset9: bits 8:0 (R91). -/
def fieldOff9 (w : Word) : BitVec 9 := w.extractLsb' 0 9

/-- PCoffset11: bits 10:0 (R91). -/
def fieldOff11 (w : Word) : BitVec 11 := w.extractLsb' 0 11

/-- Opcode 0xC: RET when BaseR is R7, JMP otherwise (R95, R163). -/
def decodeJump (base : Reg) : Instr :=
  if base = .r7 then .ret else .jmp base

/-- Opcode 0xF: the routine's own row for a code of the table, TRAP for any other (R99, R107). -/
def decodeTrap (ignored : BitVec 4) (vect : BitVec 8) : Instr :=
  match vect.toNat with
  | 0x20 => .getc
  | 0x21 => .out
  | 0x22 => .puts
  | 0x23 => .inChar
  | 0x24 => .putsp
  | 0x25 => .halt
  | _ => .trap ignored vect

/-- The decoder (R108). Every one of the 65536 Words decodes to one instruction (R107); the don't-care bits are not read
(R103) but for those of TRAP, which its error record needs. -/
def decode (w : Word) : Instr :=
  match (w.extractLsb' 12 4).toNat with
  | 0x0 => .br (w.getLsbD 11) (w.getLsbD 10) (w.getLsbD 9) (fieldOff9 w)
  | 0x1 =>
    if w.getLsbD 5 then .addImm (fieldDR w) (fieldBase w) (fieldImm5 w)
    else .addReg (fieldDR w) (fieldBase w) (fieldSR2 w)
  | 0x2 => .ld (fieldDR w) (fieldOff9 w)
  | 0x3 => .st (fieldDR w) (fieldOff9 w)
  | 0x4 => if w.getLsbD 11 then .jsr (fieldOff11 w) else .jsrr (fieldBase w)
  | 0x5 =>
    if w.getLsbD 5 then .andImm (fieldDR w) (fieldBase w) (fieldImm5 w)
    else .andReg (fieldDR w) (fieldBase w) (fieldSR2 w)
  | 0x6 => .ldr (fieldDR w) (fieldBase w) (fieldOff6 w)
  | 0x7 => .str (fieldDR w) (fieldBase w) (fieldOff6 w)
  | 0x8 => .illegal8 (w.extractLsb' 0 12)
  | 0x9 => .not (fieldDR w) (fieldBase w)
  | 0xA => .ldi (fieldDR w) (fieldOff9 w)
  | 0xB => .sti (fieldDR w) (fieldOff9 w)
  | 0xC => decodeJump (fieldBase w)
  | 0xD => .illegalD (w.extractLsb' 0 12)
  | 0xE => .lea (fieldDR w) (fieldOff9 w)
  | _ => decodeTrap (w.extractLsb' 8 4) (w.extractLsb' 0 8)

/-- A one-bit field. -/
def bitOf (b : Bool) : BitVec 1 := BitVec.ofBool b

/-- The word of an instruction, from the formats of R93 to R99, with the textbook's value in the don't-care bits (ones for
NOT bits 5:0, zeros elsewhere: R103). -/
def encode : Instr → Word
  | .addReg dr sr1 sr2 => 0x1#4 ++ (bitsOfReg dr ++ (bitsOfReg sr1 ++ (0#1 ++ (0#2 ++ bitsOfReg sr2))))
  | .addImm dr sr1 imm5 => 0x1#4 ++ (bitsOfReg dr ++ (bitsOfReg sr1 ++ (1#1 ++ imm5)))
  | .andReg dr sr1 sr2 => 0x5#4 ++ (bitsOfReg dr ++ (bitsOfReg sr1 ++ (0#1 ++ (0#2 ++ bitsOfReg sr2))))
  | .andImm dr sr1 imm5 => 0x5#4 ++ (bitsOfReg dr ++ (bitsOfReg sr1 ++ (1#1 ++ imm5)))
  | .not dr sr => 0x9#4 ++ (bitsOfReg dr ++ (bitsOfReg sr ++ 0x3F#6))
  | .br n z p off9 => 0x0#4 ++ (bitOf n ++ (bitOf z ++ (bitOf p ++ off9)))
  | .jmp base => 0xC#4 ++ (0#3 ++ (bitsOfReg base ++ 0#6))
  | .ret => 0xC#4 ++ (0#3 ++ (7#3 ++ 0#6))
  | .jsr off11 => 0x4#4 ++ (1#1 ++ off11)
  | .jsrr base => 0x4#4 ++ (0#1 ++ (0#2 ++ (bitsOfReg base ++ 0#6)))
  | .ld dr off9 => 0x2#4 ++ (bitsOfReg dr ++ off9)
  | .ldi dr off9 => 0xA#4 ++ (bitsOfReg dr ++ off9)
  | .lea dr off9 => 0xE#4 ++ (bitsOfReg dr ++ off9)
  | .st sr off9 => 0x3#4 ++ (bitsOfReg sr ++ off9)
  | .sti sr off9 => 0xB#4 ++ (bitsOfReg sr ++ off9)
  | .ldr dr base off6 => 0x6#4 ++ (bitsOfReg dr ++ (bitsOfReg base ++ off6))
  | .str sr base off6 => 0x7#4 ++ (bitsOfReg sr ++ (bitsOfReg base ++ off6))
  | .trap ignored vect => 0xF#4 ++ (ignored ++ vect)
  | .getc => 0xF#4 ++ (0#4 ++ 0x20#8)
  | .out => 0xF#4 ++ (0#4 ++ 0x21#8)
  | .puts => 0xF#4 ++ (0#4 ++ 0x22#8)
  | .inChar => 0xF#4 ++ (0#4 ++ 0x23#8)
  | .putsp => 0xF#4 ++ (0#4 ++ 0x24#8)
  | .halt => 0xF#4 ++ (0#4 ++ 0x25#8)
  | .illegal8 rest => 0x8#4 ++ rest
  | .illegalD rest => 0xD#4 ++ rest

/-- The instruction the decoder reads from an instruction whose bits are `w`, bit 0 the least significant of its one Word.
An instruction is one Word (R90), so a row of more than 16 bits, or a `w` of more bits, is none. -/
def decodeTableWord (nbits w : Nat) : Option Instr :=
  if nbits ≤ 16 ∧ w < 65536 then some (decode (BitVec.ofNat 16 w)) else none

end Sys2Proof
end

