-- ==== Sys2Proof/Machine/Trap.lean ====
section
/-! DEFINITION. TRAP, the six built-in routines (44_trap.md) and the illegal opcodes (60_exceptions.md R242). A routine runs from the
state after the entry, which has written R7; the PC is not written. -/

namespace Sys2Proof.Machine

/-- The routine GETC (R214). -/
def routineGetc (s : State) : Host.Outcome State Fault Refusal :=
  match s.consoleRead with
  | none => .fault (.waitsForInput s.out)
  | some (c, s') => .next (s'.setResult .r0 c)

/-- The routine OUT (R215). -/
def routineOut (s : State) : Host.Outcome State Fault Refusal :=
  .next (s.consoleWrite [lowByte (s.reg .r0)])

/-- A routine that scans a string from the address in R0 (R216, R218). A scan that never ends has no next state (R221). -/
def routineScan (unpack : Word → List Byte × Bool) (s : State) : Host.Outcome State Fault Refusal :=
  match scanToEnd unpack (s.reg .r0) s with
  | none => .fault .neverEnds
  | some s' => .next s'

/-- The routine IN with a prompt (R217): prompt, read, echo, R0 and the flags, in this order. -/
def routineIn (prompt : List Byte) (s : State) : Host.Outcome State Fault Refusal :=
  let prompted := s.consoleWrite prompt
  match prompted.consoleRead with
  | none => .fault (.waitsForInput prompted.out)
  | some (c, s') => .next ((s'.consoleWrite [lowByte c]).setResult .r0 c)

/-- The routine HALT with a message (R219). -/
def routineHalt (message : List Byte) (s : State) : Host.Outcome State Fault Refusal :=
  .next (s.consoleWrite message).haltRun

/-- GETC (R210, R214). -/
def execGetc (s : State) : Host.Outcome State Fault Refusal := routineGetc s.trapEntry

/-- OUT (R210, R215). -/
def execOut (s : State) : Host.Outcome State Fault Refusal := routineOut s.trapEntry

/-- PUTS (R210, R216). -/
def execPuts (s : State) : Host.Outcome State Fault Refusal := routineScan unpackPuts s.trapEntry

/-- IN (R210, R217). -/
def execIn (s : State) : Host.Outcome State Fault Refusal := routineIn Config.inPrompt s.trapEntry

/-- PUTSP (R210, R218). -/
def execPutsp (s : State) : Host.Outcome State Fault Refusal := routineScan unpackPutsp s.trapEntry

/-- HALT (R210, R219). -/
def execHalt (s : State) : Host.Outcome State Fault Refusal := routineHalt Config.haltMessage s.trapEntry

/-- TRAP (R210): R7 first, then the code's routine, or IllegalTrap for a code outside the table (R220), whose record holds the raw word. -/
def execTrap (ignored : BitVec 4) (vect : BitVec 8) (s : State) : Host.Outcome State Fault Refusal :=
  let entered := s.trapEntry
  match vect.toNat with
  | 0x20 => routineGetc entered
  | 0x21 => routineOut entered
  | 0x22 => routineScan unpackPuts entered
  | 0x23 => routineIn Config.inPrompt entered
  | 0x24 => routineScan unpackPutsp entered
  | 0x25 => routineHalt Config.haltMessage entered
  | _ => .next (entered.raiseFatal .illegalTrap (encode (.trap ignored vect)))

/-- A word of opcode 0x8 (R242): IllegalOpcode before any effect of the instruction. -/
def execIllegal8 (rest : BitVec 12) (s : State) : Host.Outcome State Fault Refusal :=
  .next (s.raiseFatal .illegalOpcode (encode (.illegal8 rest)))

/-- A word of opcode 0xD (R242): IllegalOpcode before any effect of the instruction. -/
def execIllegalD (rest : BitVec 12) (s : State) : Host.Outcome State Fault Refusal :=
  .next (s.raiseFatal .illegalOpcode (encode (.illegalD rest)))

end Sys2Proof.Machine
end

