-- ==== Sys2Proof/Machine/Dispatch.lean ====
section
/-! DEFINITION. The dispatch (40_fetch_cycle.md R124): one arm per instruction, on the state after the fetch. -/

namespace Sys2Proof.Machine

def exec (i : Instr) (s : State) : Host.Outcome State Fault Refusal :=
  match i with
  | .addReg dr sr1 sr2 => Sys2Proof.Machine.execAddReg dr sr1 sr2 s
  | .addImm dr sr1 imm5 => Sys2Proof.Machine.execAddImm dr sr1 imm5 s
  | .andReg dr sr1 sr2 => Sys2Proof.Machine.execAndReg dr sr1 sr2 s
  | .andImm dr sr1 imm5 => Sys2Proof.Machine.execAndImm dr sr1 imm5 s
  | .not dr sr => Sys2Proof.Machine.execNot dr sr s
  | .br n z p off9 => Sys2Proof.Machine.execBr n z p off9 s
  | .jmp base => Sys2Proof.Machine.execJmp base s
  | .ret => Sys2Proof.Machine.execRet s
  | .jsr off11 => Sys2Proof.Machine.execJsr off11 s
  | .jsrr base => Sys2Proof.Machine.execJsrr base s
  | .ld dr off9 => Sys2Proof.Machine.execLd dr off9 s
  | .ldi dr off9 => Sys2Proof.Machine.execLdi dr off9 s
  | .lea dr off9 => Sys2Proof.Machine.execLea dr off9 s
  | .st sr off9 => Sys2Proof.Machine.execSt sr off9 s
  | .sti sr off9 => Sys2Proof.Machine.execSti sr off9 s
  | .ldr dr base off6 => Sys2Proof.Machine.execLdr dr base off6 s
  | .str sr base off6 => Sys2Proof.Machine.execStr sr base off6 s
  | .trap ignored vect => Sys2Proof.Machine.execTrap ignored vect s
  | .getc => Sys2Proof.Machine.execGetc s
  | .out => Sys2Proof.Machine.execOut s
  | .puts => Sys2Proof.Machine.execPuts s
  | .inChar => Sys2Proof.Machine.execIn s
  | .putsp => Sys2Proof.Machine.execPutsp s
  | .halt => Sys2Proof.Machine.execHalt s
  | .illegal8 rest => Sys2Proof.Machine.execIllegal8 rest s
  | .illegalD rest => Sys2Proof.Machine.execIllegalD rest s

end Sys2Proof.Machine
end

