-- ==== Sys2Proof/Machine/Step.lean ====
section
/-! DEFINITION. One step of the machine (40_fetch_cycle.md R120, R125, R126). -/

namespace Sys2Proof.Machine

/-- One iteration of the loop: the stop inspection, the fetch, the decode and the whole execution. A terminal state has no step. -/
def step (s : State) : Host.Outcome State Fault Refusal :=
  if s.run = .running then
    if s.stopReq then .next s.stopRun else exec (decode s.fetch.1) s.fetch.2
  else .fault (.runEnded s.run)

/-- The state with the instruction of bits `w` (its low `nbits` bits, zeros above) stored where the next fetch reads it, at the PC. -/
def State.withFetchWord (s : State) (nbits w : Nat) : State := s.placeWord (BitVec.ofNat 16 (w % 2 ^ nbits))

end Sys2Proof.Machine
end

