-- ==== Sys2Proof/Machine/Launch.lean ====
section
/-! DEFINITION. The interfaces at the two ends of a run: the loader's launch (70_reset_and_hazards.md R271 to R273), and what a
caller sees at the end (40_fetch_cycle.md R130, 60_exceptions.md R252). -/

namespace Sys2Proof.Machine

/-- The Words of IMAGE stored from an address up (R271). -/
def storeImage : Word → List Word → Memory → Memory
  | _, [], m => m
  | a, w :: ws, m => storeImage (a + 1#16) ws (m.write a w)

/-- The launch (R271, R272): memory zeroed, then IMAGE at ORIGIN, then the PC. None where the image does not fit below 0x10000, which
is not a launch (93_implementation_defined.md U11). -/
def State.launch (origin : Word) (image : List Word) : Option State :=
  if origin.toNat + image.length ≤ 65536 then
    some { State.reset with pc := origin, mem := storeImage origin image State.reset.mem }
  else none

/-- A big-endian file's Words, the first byte of a pair in bits 15:8 (R271); none for an odd number of bytes. -/
def wordsOfBytes : List Byte → Option (List Word)
  | [] => some []
  | [_] => none
  | hi :: lo :: rest => (wordsOfBytes rest).map (fun ws => (hi ++ lo : Word) :: ws)

/-- The loader on an object file's bytes (R271): the origin Word, then the program's Words. -/
def State.loadObject (bytes : List Byte) : Option State :=
  match wordsOfBytes bytes with
  | some (origin :: image) => State.launch origin image
  | _ => none

/-- What a caller sees when a run has ended (R130): the terminal run state, the error record, the output. None while RUNNING. -/
def State.outcome (s : State) : Option (RunState × Option ErrorRecord × List Byte) :=
  if s.run = .running then none else some (s.run, s.err, s.out)

/-- The distinguished non-zero status of an error and of a failed load (R252). -/
def errorExitStatus : Nat := Config.errorExitStatusPred + 1

/-- The process exit status of an ended run (R252). -/
def exitStatus : RunState → Option Nat
  | .running => none
  | .halted => some 0
  | .error => some errorExitStatus
  | .stopped => some Config.stopExitStatus

/-- The process exit status of a launch that the loader turned away (R252). -/
def loadExitStatus : Option State → Option Nat
  | some _ => none
  | none => some errorExitStatus

end Sys2Proof.Machine
end

