-- ==== Sys2Proof/Safety.lean ====
section
/-! DEFINITION. The terms claims are stated in: what each instruction may write, what a state keeps, the invariant, and the runs of the
machine under its host. -/

namespace Sys2Proof.Machine

/-! ### The spec's tables of effects -/

/-- The registers an instruction may write (the table of 10_state.md R31). -/
def writes : Instr → List Reg
  | .addReg dr _ _ => [dr]
  | .addImm dr _ _ => [dr]
  | .andReg dr _ _ => [dr]
  | .andImm dr _ _ => [dr]
  | .not dr _ => [dr]
  | .br _ _ _ _ => []
  | .jmp _ => []
  | .ret => []
  | .jsr _ => [.r7]
  | .jsrr _ => [.r7]
  | .ld dr _ => [dr]
  | .ldi dr _ => [dr]
  | .lea dr _ => [dr]
  | .st _ _ => []
  | .sti _ _ => []
  | .ldr dr _ _ => [dr]
  | .str _ _ _ => []
  | .trap _ vect => if vect = 0x20#8 ∨ vect = 0x23#8 then [.r7, .r0] else [.r7]
  | .getc => [.r7, .r0]
  | .out => [.r7]
  | .puts => [.r7]
  | .inChar => [.r7, .r0]
  | .putsp => [.r7]
  | .halt => [.r7]
  | .illegal8 _ => []
  | .illegalD _ => []

/-- The instructions that define flags (10_state.md R41). -/
def definesFlags : Instr → Bool
  | .addReg _ _ _ => true
  | .addImm _ _ _ => true
  | .andReg _ _ _ => true
  | .andImm _ _ _ => true
  | .not _ _ => true
  | .br _ _ _ _ => false
  | .jmp _ => false
  | .ret => false
  | .jsr _ => false
  | .jsrr _ => false
  | .ld _ _ => true
  | .ldi _ _ => true
  | .lea _ _ => true
  | .st _ _ => false
  | .sti _ _ => false
  | .ldr _ _ _ => true
  | .str _ _ _ => false
  | .trap _ vect => vect = 0x20#8 ∨ vect = 0x23#8
  | .getc => true
  | .out => false
  | .puts => false
  | .inChar => true
  | .putsp => false
  | .halt => false
  | .illegal8 _ => false
  | .illegalD _ => false

/-- The instructions that may write the PC (10_state.md R37). -/
def transfers : Instr → Bool
  | .br _ _ _ _ => true
  | .jmp _ => true
  | .ret => true
  | .jsr _ => true
  | .jsrr _ => true
  | _ => false

/-- TRAP and the six routines (44_trap.md). -/
def isTrap : Instr → Bool
  | .trap _ _ => true
  | .getc => true
  | .out => true
  | .puts => true
  | .inChar => true
  | .putsp => true
  | .halt => true
  | _ => false

/-- The address an instruction stores to, computed as its meaning computes it (43_load_store.md R180, R185 to R187). -/
def storeAddress : Instr → State → Option Word
  | .st _ off9, s => some (pcRelative s off9)
  | .sti _ off9, s => some (indirect s off9).1
  | .str _ base off6, s => some (baseOffset s base off6)
  | _, _ => none

/-- The instructions whose step may have no end: the console reads and the string scans (40_fetch_cycle.md R127, 44_trap.md R221). -/
def mayNotEnd : Instr → Bool
  | .getc => true
  | .inChar => true
  | .puts => true
  | .putsp => true
  | .trap _ vect => vect = 0x20#8 ∨ vect = 0x22#8 ∨ vect = 0x23#8 ∨ vect = 0x24#8
  | _ => false

/-! ### The spec's words, apart from the machine's own functions -/

/-- The flags of a result by its signed reading (00_scope.md R11, R17): negative, zero, positive. -/
def signedFlags (v : Word) : NZP := ⟨v.toInt < 0, v.toInt = 0, 0 < v.toInt⟩

/-- An offset or immediate as a signed displacement (00_scope.md R12, 30_encoding.md R101). -/
def displacement {k : Nat} (f : BitVec k) : Word := BitVec.ofInt 16 f.toInt

/-- Exactly one flag is set (10_state.md R40). -/
def NZP.ExactlyOne (f : NZP) : Prop := f = ⟨true, false, false⟩ ∨ f = ⟨false, true, false⟩ ∨ f = ⟨false, false, true⟩

/-- The string loop of PUTS and PUTSP as the spec writes it (44_trap.md R216, R218), with no bound: from address `a` and state `s` the loop
ends in the given state. -/
inductive ScanEnds (unpack : Word → List Byte × Bool) : Word → State → State → Prop where
  | last {a : Word} {s : State} (h : (unpack (s.memRead a).1).2 = false) :
      ScanEnds unpack a s ((s.memRead a).2.consoleWrite (unpack (s.memRead a).1).1)
  | more {a : Word} {s t : State} (h : (unpack (s.memRead a).1).2 = true)
      (rest : ScanEnds unpack (a + 1#16) ((s.memRead a).2.consoleWrite (unpack (s.memRead a).1).1) t) : ScanEnds unpack a s t

/-- The draws of KeyPoll after so many polls. -/
def keysAfterPolls (s : State) : Nat → Draws
  | 0 => s.keys
  | n + 1 => ((keysAfterPolls s n).next Config.keyAnswer).2

/-- The environment's answer to the poll after so many polls. -/
def keyAtPoll (s : State) (n : Nat) : Option Word := ((keysAfterPolls s n).next Config.keyAnswer).1

/-- The state after so many reads of the status register, with nothing else between them. -/
def afterStatusReads (s : State) : Nat → State
  | 0 => s
  | n + 1 => ((afterStatusReads s n).memRead kbsr).2

/-! ### What a step leaves unchanged -/

/-- Every register but the listed ones is unchanged. -/
def SameRegsBut (rs : List Reg) (s t : State) : Prop := ∀ r, r ∉ rs → t.reg r = s.reg r

/-- Every Word of memory, the device cells among them, and the draws of KeyPoll are unchanged. -/
def SameMemory (s t : State) : Prop := (∀ a, t.cell a = s.cell a) ∧ t.keys = s.keys

/-- The run state, the error record and the stop request are unchanged. -/
def SameControl (s t : State) : Prop := t.run = s.run ∧ t.err = s.err ∧ t.stopReq = s.stopReq

/-- The output and the console input are unchanged. -/
def SameConsole (s t : State) : Prop := t.out = s.out ∧ t.input = s.input

/-- `t` is `s` with `v` in `dr` and the flags of `v`; the PC, the other registers, the run and the console are unchanged. Memory is not spoken
of. -/
def ResultIn (dr : Reg) (v : Word) (s t : State) : Prop :=
  t.reg dr = v ∧ t.nzp = signedFlags v ∧ SameRegsBut [dr] s t ∧ t.pc = s.pc ∧ SameControl s t ∧ SameConsole s t

/-- `t` is `s` with the Word at `a` replaced by `v`; nothing else is changed. -/
def StoredAt (a v : Word) (s t : State) : Prop :=
  (∀ b, t.cell b = if b = a then v else s.cell b) ∧ t.keys = s.keys ∧ SameRegsBut [] s t ∧ t.nzp = s.nzp ∧ t.pc = s.pc ∧
    SameControl s t ∧ SameConsole s t

/-- `t` is `s` with the PC at `target` and, where `link`, R7 at `s.pc`; nothing else is changed. -/
def WentTo (target : Word) (link : Bool) (s t : State) : Prop :=
  t.pc = target ∧ (if link then t.reg .r7 = s.pc ∧ SameRegsBut [.r7] s t else SameRegsBut [] s t) ∧ t.nzp = s.nzp ∧ SameMemory s t ∧
    SameControl s t ∧ SameConsole s t

/-! ### The invariant and the runs -/

/-- What every step keeps: memory in its canonical form, at most one flag set (10_state.md R40, R43), and an error record exactly in ERROR
(10_state.md R47). -/
def State.Inv (s : State) : Prop :=
  s.mem.wf = true ∧ (s.nzp = ⟨false, false, false⟩ ∨ s.nzp.ExactlyOne) ∧ (s.run = .error ↔ s.err.isSome = true)

/-- The states a run comes to: by steps, and by the host's stop request between them (60_exceptions.md R250). -/
inductive Reaches : State → State → Prop where
  | refl (s : State) : Reaches s s
  | step {s t u : State} (h : Reaches s t) (hu : Machine.step t = .next u) : Reaches s u
  | stop {s t : State} (h : Reaches s t) : Reaches s t.requestStop

end Sys2Proof.Machine
end

