-- ==== Sys2Proof/Certificates/Slice0/Obligations.lean ====
section
/-! DEFINITION. The statements for the provers. `exec i s` runs on the state after the fetch, so `s.pc` is the post-increment PC
(40_fetch_cycle.md R122). In the statements of an instruction's effect the first clause is the rule's encoding line, for every value of
the don't-care bits; the spec marks its layouts as general knowledge (93_implementation_defined.md I1). -/

open Sys2Proof Sys2Proof.Machine

/-! ### Encoding -/

/-- Decoding the word of a well-formed instruction gives it back, at every operand value (30_encoding.md, formats and decode function). -/
def Obligations.DecodeOfEncode : Prop :=
  ∀ i : Instr, i.wellFormed = true → decode (encode i) = i

/-- The decoder is total and never gives an ill-formed instruction, and re-encoding what it reads keeps its meaning (30_encoding.md, E4). -/
def Obligations.DecodeIsWellFormed : Prop :=
  ∀ w : Word, (decode w).wellFormed = true ∧ decode (encode (decode w)) = decode w

/-- The words of opcodes 0x8 and 0xD, and no others, are illegal, and the decoded instruction keeps the whole word; a TRAP word decodes by its
code alone, to the routine's row for a code of the table and to TRAP otherwise (30_encoding.md, E1 and E4; which opcodes are illegal and the
codes 0x20 to 0x24 are the spec's decisions D5 and D6). -/
def Obligations.IllegalAndTrapWordsDecode : Prop :=
  (∀ w : Word,
    ((∃ rest, decode w = .illegal8 rest) ↔ w.extractLsb' 12 4 = 0x8#4) ∧
    ((∃ rest, decode w = .illegalD rest) ↔ w.extractLsb' 12 4 = 0xD#4) ∧
    ((w.extractLsb' 12 4 = 0x8#4 ∨ w.extractLsb' 12 4 = 0xD#4) → encode (decode w) = w)) ∧
  ∀ (x : BitVec 4) (v : BitVec 8),
    decode (0xF#4 ++ (x ++ v)) =
      if v = 0x20#8 then .getc else if v = 0x21#8 then .out else if v = 0x22#8 then .puts
      else if v = 0x23#8 then .inChar else if v = 0x24#8 then .putsp else if v = 0x25#8 then .halt else .trap x v

/-- Words the spec writes out decode to the instruction they stand for (95_test_vectors.md, 30_encoding.md). -/
def Obligations.WrittenWordsDecode : Prop :=
  decode 0x1283#16 = .addReg .r1 .r2 .r3 ∧ decode 0x127F#16 = .addImm .r1 .r1 0x1F#5 ∧ decode 0x54C4#16 = .andReg .r2 .r3 .r4 ∧
  decode 0x94FF#16 = .not .r2 .r3 ∧ decode 0x0402#16 = .br false true false 2#9 ∧ decode 0xC1C0#16 = .ret ∧
  decode 0x41C0#16 = .jsrr .r7 ∧ decode 0xA202#16 = .ldi .r1 2#9 ∧ decode 0x75BF#16 = .str .r2 .r6 0x3F#6 ∧ decode 0xF025#16 = .halt

/-! ### The step -/

/-- A step of a running machine with no stop request reads the Word at the PC through the side-effecting read, increments the PC and
executes the decoded instruction (40_fetch_cycle.md, The step). -/
def Obligations.StepRunsTheDecodedInstruction : Prop :=
  ∀ s : State, s.run = .running → s.stopReq = false →
    step s = exec (decode (s.memRead s.pc).1) { (s.memRead s.pc).2 with pc := s.pc + 1#16 } ∧
    (Plain s.pc → step s = exec (decode (s.cell s.pc)) { s with pc := s.pc + 1#16 })

/-- A Word placed at the PC is what the next step runs: a store is seen by every later fetch (20_memory.md, D4 Instruction-fetch
coherence). -/
def Obligations.PlacedWordIsRunNext : Prop :=
  ∀ (s : State) (w : Word), s.mem.wf = true → s.run = .running → s.stopReq = false → Plain s.pc →
    step (s.withFetchWord 16 w.toNat) = exec (decode w) { s.withFetchWord 16 w.toNat with pc := s.pc + 1#16 } ∧
    ∀ b, (s.withFetchWord 16 w.toNat).cell b = if b = s.pc then w else s.cell b

/-- A pending stop request ends the run before anything is fetched; only the host's action sets it, and no instruction writes it
(40_fetch_cycle.md, The step; 60_exceptions.md, The host; its placement is the spec's decision D20). -/
def Obligations.StopRequestEndsTheRun : Prop :=
  (∀ s : State, s.run = .running → s.stopReq = true → step s = .next { s with run := .stopped }) ∧
  (∀ (i : Instr) (s t : State), exec i s = .next t → t.stopReq = s.stopReq) ∧
  ∀ s : State, s.requestStop = { s with stopReq := true }

/-- A terminal state has no step (40_fetch_cycle.md R126). -/
def Obligations.TerminalStateHasNoStep : Prop :=
  ∀ s : State, (s.run = .halted ∨ s.run = .error ∨ s.run = .stopped) → step s = .fault (.runEnded s.run)

/-- Once a run has ended nothing changes but the host's own stop request (95_test_vectors.md S5). -/
def Obligations.EndedRunNeverChanges : Prop :=
  ∀ s t : State, s.run ≠ .running → Reaches s t → t = { s with stopReq := t.stopReq }

/-- From RUNNING a step gives a next state, or waits for input, or never ends; no instruction is refused (95_test_vectors.md S1). -/
def Obligations.StepFromRunning : Prop :=
  ∀ s : State, s.run = .running →
    (∃ t, step s = .next t) ∨ (∃ o, step s = .fault (.waitsForInput o)) ∨ step s = .fault .neverEnds

/-- Every instruction but the console reads and the string scans completes in every state (60_exceptions.md, G1: nothing else is an
error). -/
def Obligations.OtherInstructionsAlwaysComplete : Prop :=
  ∀ (i : Instr) (s : State), mayNotEnd i = false → ∃ t, exec i s = .next t

/-! ### Operate instructions and flags -/

/-- setcc follows the signed reading of the result, and sets exactly one flag (00_scope.md R17). -/
def Obligations.FlagsFollowTheSignedReading : Prop :=
  ∀ (s : State) (v : Word),
    s.setcc v = { s with nzp := signedFlags v } ∧ (signedFlags v).ExactlyOne ∧
    (v.getLsbD 15 = true → signedFlags v = ⟨true, false, false⟩) ∧ (v = 0#16 → signedFlags v = ⟨false, true, false⟩) ∧
    (v.getLsbD 15 = false → v ≠ 0#16 → signedFlags v = ⟨false, false, true⟩)

/-- ADD, register form (41_operate.md R141). -/
def Obligations.AddRegister : Prop :=
  ∀ (dr sr1 sr2 : Reg) (s : State),
    (∀ x : BitVec 2, decode (0x1#4 ++ (bitsOfReg dr ++ (bitsOfReg sr1 ++ (0#1 ++ (x ++ bitsOfReg sr2))))) = .addReg dr sr1 sr2) ∧
    ∃ t, exec (.addReg dr sr1 sr2) s = .next t ∧ ResultIn dr (s.reg sr1 + s.reg sr2) s t ∧ SameMemory s t

/-- ADD, immediate form (41_operate.md R142). -/
def Obligations.AddImmediate : Prop :=
  ∀ (dr sr1 : Reg) (imm5 : BitVec 5) (s : State),
    decode (0x1#4 ++ (bitsOfReg dr ++ (bitsOfReg sr1 ++ (1#1 ++ imm5)))) = .addImm dr sr1 imm5 ∧
    ∃ t, exec (.addImm dr sr1 imm5) s = .next t ∧ ResultIn dr (s.reg sr1 + displacement imm5) s t ∧ SameMemory s t

/-- AND, register form (41_operate.md R143). -/
def Obligations.AndRegister : Prop :=
  ∀ (dr sr1 sr2 : Reg) (s : State),
    (∀ x : BitVec 2, decode (0x5#4 ++ (bitsOfReg dr ++ (bitsOfReg sr1 ++ (0#1 ++ (x ++ bitsOfReg sr2))))) = .andReg dr sr1 sr2) ∧
    ∃ t, exec (.andReg dr sr1 sr2) s = .next t ∧ ResultIn dr (s.reg sr1 &&& s.reg sr2) s t ∧ SameMemory s t

/-- AND, immediate form (41_operate.md R144). -/
def Obligations.AndImmediate : Prop :=
  ∀ (dr sr1 : Reg) (imm5 : BitVec 5) (s : State),
    decode (0x5#4 ++ (bitsOfReg dr ++ (bitsOfReg sr1 ++ (1#1 ++ imm5)))) = .andImm dr sr1 imm5 ∧
    ∃ t, exec (.andImm dr sr1 imm5) s = .next t ∧ ResultIn dr (s.reg sr1 &&& displacement imm5) s t ∧ SameMemory s t

/-- NOT (41_operate.md R145). -/
def Obligations.NotComplements : Prop :=
  ∀ (dr sr : Reg) (s : State),
    (∀ x : BitVec 6, decode (0x9#4 ++ (bitsOfReg dr ++ (bitsOfReg sr ++ x))) = .not dr sr) ∧
    ∃ t, exec (.not dr sr) s = .next t ∧ ResultIn dr (~~~(s.reg sr)) s t ∧ SameMemory s t

/-- After an instruction that defines flags exactly one of them is set (10_state.md R40). -/
def Obligations.DefiningInstructionsSetExactlyOneFlag : Prop :=
  ∀ (i : Instr) (s t : State), definesFlags i = true → exec i s = .next t → t.nzp.ExactlyOne

/-- The flags are written from the result in DR, or from the new R0 of GETC and IN; every other instruction leaves them unchanged
(10_state.md R41). -/
def Obligations.OtherInstructionsKeepTheFlags : Prop :=
  ∀ (i : Instr) (s t : State), exec i s = .next t →
    (definesFlags i = false → t.nzp = s.nzp) ∧
    (definesFlags i = true → ∃ r ∈ writes i, (isTrap i = true → r = .r0) ∧ t.nzp = signedFlags (t.reg r))

/-! ### Control transfer -/

/-- BR (42_control.md R160): taken when a condition bit meets a set flag, from the post-increment PC. -/
def Obligations.BranchOnFlags : Prop :=
  ∀ (n z p : Bool) (off9 : BitVec 9) (s : State),
    decode (0x0#4 ++ (BitVec.ofBool n ++ (BitVec.ofBool z ++ (BitVec.ofBool p ++ off9)))) = .br n z p off9 ∧
    ∃ t, exec (.br n z p off9) s = .next t ∧
      WentTo (if (n = true ∧ s.nzp.n = true) ∨ (z = true ∧ s.nzp.z = true) ∨ (p = true ∧ s.nzp.p = true)
        then s.pc + displacement off9 else s.pc) false s t

/-- JMP (42_control.md R162); with BaseR = R7 its words are RET's. -/
def Obligations.JumpToRegister : Prop :=
  ∀ (base : Reg) (s : State),
    (∀ (x : BitVec 3) (y : BitVec 6),
      decode (0xC#4 ++ (x ++ (bitsOfReg base ++ y))) = if base = .r7 then .ret else .jmp base) ∧
    ∃ t, exec (.jmp base) s = .next t ∧ WentTo (s.reg base) false s t

/-- RET is JMP with BaseR = R7 (42_control.md R163). -/
def Obligations.ReturnIsJumpThroughR7 : Prop :=
  ∀ s : State,
    (∀ (x : BitVec 3) (y : BitVec 6), decode (0xC#4 ++ (x ++ (7#3 ++ y))) = .ret) ∧ decode 0xC1C0#16 = .ret ∧
    exec .ret s = exec (.jmp .r7) s ∧ ∃ t, exec .ret s = .next t ∧ WentTo (s.reg .r7) false s t

/-- JSR (42_control.md R165). -/
def Obligations.CallRelative : Prop :=
  ∀ (off11 : BitVec 11) (s : State),
    decode (0x4#4 ++ (1#1 ++ off11)) = .jsr off11 ∧
    ∃ t, exec (.jsr off11) s = .next t ∧ WentTo (s.pc + displacement off11) true s t

/-- JSRR (42_control.md, JSRR): R7 is written before the base is read, so JSRR R7 goes to the return address. That order is the spec's
decision D9. -/
def Obligations.CallThroughRegister : Prop :=
  ∀ (base : Reg) (s : State),
    (∀ (x : BitVec 2) (y : BitVec 6), decode (0x4#4 ++ (0#1 ++ (x ++ (bitsOfReg base ++ y)))) = .jsrr base) ∧
    ∃ t, exec (.jsrr base) s = .next t ∧ WentTo (if base = .r7 then s.pc else s.reg base) true s t

/-- At the end of an instruction the PC is the post-increment value or the target of a control transfer; no other instruction writes it
(10_state.md, Program counter). That JSRR's target is the base register's value after the link is written is the spec's decision D9. -/
def Obligations.OnlyTransfersWriteThePc : Prop :=
  ∀ (i : Instr) (s t : State), exec i s = .next t →
    (transfers i = false → t.pc = s.pc) ∧
    (∀ n z p off9, i = .br n z p off9 → t.pc = s.pc ∨ t.pc = s.pc + displacement off9) ∧
    (∀ base, i = .jmp base → t.pc = s.reg base) ∧ (i = .ret → t.pc = s.reg .r7) ∧
    (∀ off11, i = .jsr off11 → t.pc = s.pc + displacement off11) ∧
    (∀ base, i = .jsrr base → t.pc = t.reg base)

/-- An instruction writes no register but those of the table (10_state.md R31), where every TRAP, HALT and the illegal codes included, leaves
the return address in R7, and a 3-bit field names every register. -/
def Obligations.RegistersWrittenByTable : Prop :=
  (∀ b : BitVec 3, bitsOfReg (regOfBits b) = b) ∧ (∀ r : Reg, regOfBits (bitsOfReg r) = r) ∧
  ∀ (i : Instr) (s t : State), exec i s = .next t →
    SameRegsBut (writes i) s t ∧ (isTrap i = true → t.reg .r7 = s.pc)

/-! ### Memory -/

/-- A read of a plain address returns the cell and changes nothing (20_memory.md R64). -/
def Obligations.PlainReadChangesNothing : Prop :=
  ∀ (s : State) (a : Word), a ≠ 0xFE00#16 ∧ a ≠ 0xFE02#16 → s.memRead a = (s.cell a, s)

/-- A read of the status register polls: the environment's answer is drawn at this read, and beyond the settled answers it is free at every
poll (20_memory.md, the poll; 92_eei_decisions.md D10, D35; log entry 2). -/
def Obligations.StatusReadPolls : Prop :=
  ∀ s : State, s.mem.wf = true →
    (∀ k, s.nextKey = some k → (s.memRead 0xFE00#16).1 = 0x8000#16 ∧ (s.memRead 0xFE00#16).2.keys = s.keysAfter ∧
      ∀ b, (s.memRead 0xFE00#16).2.cell b = if b = 0xFE00#16 then 0x8000#16 else if b = 0xFE02#16 then k else s.cell b) ∧
    (s.nextKey = none → s.memRead 0xFE00#16 = (s.cell 0xFE00#16, { s with keys := s.keysAfter })) ∧
    (∀ a ks, s.keys.known = a :: ks → s.nextKey = a ∧ s.keysAfter = ⟨ks, s.keys.drawn⟩) ∧
    (s.keys.known = [] → s.nextKey = Config.keyAnswer s.keys.drawn ∧ s.keysAfter = ⟨[], s.keys.drawn + 1⟩)

/-- A read of the data register returns the code and clears bit 15 of the status register, with no poll (20_memory.md, the data read;
92_eei_decisions.md D11). -/
def Obligations.DataReadClearsAvailability : Prop :=
  ∀ s : State, s.mem.wf = true →
    (s.memRead 0xFE02#16).1 = s.cell 0xFE02#16 ∧ (s.memRead 0xFE02#16).2.keys = s.keys ∧
    (∀ b, b ≠ 0xFE00#16 → (s.memRead 0xFE02#16).2.cell b = s.cell b) ∧
    ∀ j, ((s.memRead 0xFE02#16).2.cell 0xFE00#16).getLsbD j = (decide (j ≠ 15) && (s.cell 0xFE00#16).getLsbD j)

/-- From a poll that finds a key on, every status read shows the bit until the data register is read, however many they are and whatever the
later polls find. The data read then returns the code of the last key found, and where the next poll finds no key the status reads as clear and a
second data read returns the same code (95_test_vectors.md W6 is the case of two status reads; 90_conflicts.md C3). -/
def Obligations.StatusSetUntilDataRead : Prop :=
  ∀ (s : State) (k : Word), s.mem.wf = true → s.nextKey = some k →
    ∀ n,
      ((afterStatusReads s n).memRead 0xFE00#16).1 = 0x8000#16 ∧
      let c := (afterStatusReads s (n + 1)).memRead 0xFE02#16
      (∃ m ≤ n, keyAtPoll s m = some c.1 ∧ ∀ j, m < j → j ≤ n → keyAtPoll s j = none) ∧
      (keyAtPoll s (n + 1) = none →
        let d := c.2.memRead 0xFE00#16
        d.1 = 0x0000#16 ∧ (d.2.memRead 0xFE02#16).1 = c.1)

/-- LD (43_load_store.md R181): the Word read, with the read's side effects on the keyboard cells. -/
def Obligations.LoadRelative : Prop :=
  ∀ (dr : Reg) (off9 : BitVec 9) (s : State),
    decode (0x2#4 ++ (bitsOfReg dr ++ off9)) = .ld dr off9 ∧
    let r := s.memRead (s.pc + displacement off9)
    ∃ t, exec (.ld dr off9) s = .next t ∧ ResultIn dr r.1 s t ∧ SameMemory r.2 t

/-- LDI (43_load_store.md R182): two reads in order, each with its own side effects. -/
def Obligations.LoadIndirect : Prop :=
  ∀ (dr : Reg) (off9 : BitVec 9) (s : State),
    decode (0xA#4 ++ (bitsOfReg dr ++ off9)) = .ldi dr off9 ∧
    let p := s.memRead (s.pc + displacement off9)
    let r := p.2.memRead p.1
    ∃ t, exec (.ldi dr off9) s = .next t ∧ ResultIn dr r.1 s t ∧ SameMemory r.2 t

/-- LDR (43_load_store.md R183). -/
def Obligations.LoadBaseOffset : Prop :=
  ∀ (dr base : Reg) (off6 : BitVec 6) (s : State),
    decode (0x6#4 ++ (bitsOfReg dr ++ (bitsOfReg base ++ off6))) = .ldr dr base off6 ∧
    let r := s.memRead (s.reg base + displacement off6)
    ∃ t, exec (.ldr dr base off6) s = .next t ∧ ResultIn dr r.1 s t ∧ SameMemory r.2 t

/-- LEA (43_load_store.md R184): the address, with no access to memory. -/
def Obligations.LoadEffectiveAddress : Prop :=
  ∀ (dr : Reg) (off9 : BitVec 9) (s : State),
    decode (0xE#4 ++ (bitsOfReg dr ++ off9)) = .lea dr off9 ∧
    ∃ t, exec (.lea dr off9) s = .next t ∧ ResultIn dr (s.pc + displacement off9) s t ∧ SameMemory s t

/-- ST (43_load_store.md R185): the cell at the address takes SR, everything else is unchanged. -/
def Obligations.StoreRelative : Prop :=
  ∀ (sr : Reg) (off9 : BitVec 9) (s : State), s.mem.wf = true →
    decode (0x3#4 ++ (bitsOfReg sr ++ off9)) = .st sr off9 ∧
    ∃ t, exec (.st sr off9) s = .next t ∧ StoredAt (s.pc + displacement off9) (s.reg sr) s t

/-- STI (43_load_store.md R186): the pointer is read first, with its side effects, then the cell it names takes SR. -/
def Obligations.StoreIndirect : Prop :=
  ∀ (sr : Reg) (off9 : BitVec 9) (s : State), s.mem.wf = true →
    decode (0xB#4 ++ (bitsOfReg sr ++ off9)) = .sti sr off9 ∧
    let p := s.memRead (s.pc + displacement off9)
    ∃ t, exec (.sti sr off9) s = .next t ∧ StoredAt p.1 (s.reg sr) p.2 t ∧ SameRegsBut [] s t ∧ t.nzp = s.nzp ∧ t.pc = s.pc ∧
      SameControl s t ∧ SameConsole s t

/-- STR (43_load_store.md R187). -/
def Obligations.StoreBaseOffset : Prop :=
  ∀ (sr base : Reg) (off6 : BitVec 6) (s : State), s.mem.wf = true →
    decode (0x7#4 ++ (bitsOfReg sr ++ (bitsOfReg base ++ off6))) = .str sr base off6 ∧
    ∃ t, exec (.str sr base off6) s = .next t ∧ StoredAt (s.reg base + displacement off6) (s.reg sr) s t

/-- No instruction changes a plain cell it does not store to (20_memory.md, B6; 44_trap.md, F7: no routine writes memory). -/
def Obligations.PlainCellsChangeOnlyByStores : Prop :=
  ∀ (i : Instr) (s t : State), s.mem.wf = true → exec i s = .next t →
    ∀ a, Plain a → storeAddress i s ≠ some a → t.cell a = s.cell a

/-- Without a key from the environment the machine itself never sets availability: where an instruction that does not store to the status
register set it, one of the polls it made found a key (95_test_vectors.md S7). -/
def Obligations.OnlyAKeySetsAvailability : Prop :=
  ∀ (i : Instr) (s t : State), s.mem.wf = true → exec i s = .next t → storeAddress i s ≠ some 0xFE00#16 →
    (s.cell 0xFE00#16).getLsbD 15 = false → (t.cell 0xFE00#16).getLsbD 15 = true →
    ∃ n m k, n < m ∧ keyAtPoll s n = some k ∧ t.keys = keysAfterPolls s m

/-! ### TRAP and the routines -/

/-- GETC with the read answered (44_trap.md R214): no echo, R7 then R0, flags from the new R0; the keyboard registers are not touched. -/
def Obligations.GetcDeliversOneWord : Prop :=
  ∀ (s : State) (c : Word), s.nextInput = some c →
    (∀ x : BitVec 4, decode (0xF#4 ++ (x ++ 0x20#8)) = .getc) ∧
    ∃ t, exec .getc s = .next t ∧ t.reg .r0 = c ∧ t.reg .r7 = s.pc ∧ SameRegsBut [.r0, .r7] s t ∧ t.nzp = signedFlags c ∧
      t.input = s.inputAfter ∧ t.out = s.out ∧ t.pc = s.pc ∧ SameMemory s t ∧ SameControl s t

/-- IN with the read answered (44_trap.md, IN): prompt, read, echo of the low byte, R0 and flags, for every prompt (a parameter, 92_eei_decisions.md
D17). -/
def Obligations.InPromptsAndEchoes : Prop :=
  ∀ (s : State) (c : Word), s.nextInput = some c →
    ∃ t, exec .inChar s = .next t ∧ t.reg .r0 = c ∧ t.reg .r7 = s.pc ∧ SameRegsBut [.r0, .r7] s t ∧ t.nzp = signedFlags c ∧
      t.input = s.inputAfter ∧ t.out = s.out ++ Config.inPrompt ++ [c.setWidth 8] ∧ t.pc = s.pc ∧ SameMemory s t ∧ SameControl s t

/-- GETC and IN wait exactly where the environment does not answer the read, and nothing says that it does (40_fetch_cycle.md, The step;
93_implementation_defined.md U10; 92_eei_decisions.md D27, D31). -/
def Obligations.ConsoleReadsWaitForInput : Prop :=
  ∀ s : State,
    (s.nextInput = none → exec .getc s = .fault (.waitsForInput s.out) ∧
      exec .inChar s = .fault (.waitsForInput (s.out ++ Config.inPrompt))) ∧
    (s.nextInput ≠ none → (∃ t, exec .getc s = .next t) ∧ ∃ t, exec .inChar s = .next t)

/-- OUT (44_trap.md, OUT): the low byte of R0, nothing else but R7. The code and its ignored bits, and the return to the next instruction, are
the spec's decisions D6 and D7 (44_trap.md, The TRAP instruction). -/
def Obligations.OutWritesTheLowByte : Prop :=
  ∀ s : State,
    (∀ x : BitVec 4, decode (0xF#4 ++ (x ++ 0x21#8)) = .out) ∧
    ∃ t, exec .out s = .next t ∧ t.out = s.out ++ [(s.reg .r0).setWidth 8] ∧ t.reg .r7 = s.pc ∧ SameRegsBut [.r7] s t ∧
      t.nzp = s.nzp ∧ t.pc = s.pc ∧ t.input = s.input ∧ SameMemory s t ∧ SameControl s t

/-- PUTS on a string in plain cells (44_trap.md, PUTS; 92_eei_decisions.md D15): the low byte of each of its `n` Words, and no more. -/
def Obligations.PutsWritesTheString : Prop :=
  ∀ (s : State) (n : Nat),
    (∀ i ≤ n, Plain (s.reg .r0 + BitVec.ofNat 16 i)) → (∀ i < n, s.cell (s.reg .r0 + BitVec.ofNat 16 i) ≠ 0#16) →
    s.cell (s.reg .r0 + BitVec.ofNat 16 n) = 0#16 →
    ∃ t, exec .puts s = .next t ∧
      t.out = s.out ++ (List.range n).map (fun i => (s.cell (s.reg .r0 + BitVec.ofNat 16 i)).setWidth 8) ∧
      t.reg .r7 = s.pc ∧ SameRegsBut [.r7] s t ∧ t.nzp = s.nzp ∧ t.pc = s.pc ∧ t.input = s.input ∧ SameMemory s t ∧ SameControl s t

/-- PUTSP on a packed string in plain cells (44_trap.md, PUTSP; it ends at the first zero byte, 92_eei_decisions.md D16): low then high byte of
each of its `n` full Words, then the low byte of the last Word where it is not zero. -/
def Obligations.PutspWritesThePackedString : Prop :=
  ∀ (s : State) (n : Nat),
    (∀ i ≤ n, Plain (s.reg .r0 + BitVec.ofNat 16 i)) →
    (∀ i < n, (s.cell (s.reg .r0 + BitVec.ofNat 16 i)).extractLsb' 0 8 ≠ 0#8 ∧
      (s.cell (s.reg .r0 + BitVec.ofNat 16 i)).extractLsb' 8 8 ≠ 0#8) →
    ((s.cell (s.reg .r0 + BitVec.ofNat 16 n)).extractLsb' 0 8 = 0#8 ∨
      (s.cell (s.reg .r0 + BitVec.ofNat 16 n)).extractLsb' 8 8 = 0#8) →
    ∃ t, exec .putsp s = .next t ∧
      t.out = s.out ++ (List.range n).flatMap (fun i =>
          [(s.cell (s.reg .r0 + BitVec.ofNat 16 i)).extractLsb' 0 8, (s.cell (s.reg .r0 + BitVec.ofNat 16 i)).extractLsb' 8 8]) ++
        (if (s.cell (s.reg .r0 + BitVec.ofNat 16 n)).extractLsb' 0 8 = 0#8 then []
          else [(s.cell (s.reg .r0 + BitVec.ofNat 16 n)).extractLsb' 0 8]) ∧
      t.reg .r7 = s.pc ∧ SameRegsBut [.r7] s t ∧ t.nzp = s.nzp ∧ t.pc = s.pc ∧ t.input = s.input ∧ SameMemory s t ∧ SameControl s t

/-- PUTS and PUTSP are the spec's unbounded loop, device cells included, whatever the environment answers its polls: they answer the state in
which the loop ends, and fault exactly when it never ends (44_trap.md, PUTS, PUTSP and the missing terminator). -/
def Obligations.ScansAreTheSpecsLoop : Prop :=
  ∀ s : State,
    (∀ t, exec .puts s = .next t ↔ ScanEnds unpackPuts (s.reg .r0) s.trapEntry t) ∧
    (exec .puts s = .fault .neverEnds ↔ ¬ ∃ t, ScanEnds unpackPuts (s.reg .r0) s.trapEntry t) ∧
    (∀ t, exec .putsp s = .next t ↔ ScanEnds unpackPutsp (s.reg .r0) s.trapEntry t) ∧
    (exec .putsp s = .fault .neverEnds ↔ ¬ ∃ t, ScanEnds unpackPutsp (s.reg .r0) s.trapEntry t)

/-- The frame of PUTS and PUTSP, strings that cross the device cells included (44_trap.md, F7: what no routine changes). -/
def Obligations.ScanFrame : Prop :=
  ∀ (i : Instr) (s t : State), (i = .puts ∨ i = .putsp) → exec i s = .next t →
    t.reg .r7 = s.pc ∧ SameRegsBut [.r7] s t ∧ t.nzp = s.nzp ∧ t.pc = s.pc ∧ t.input = s.input ∧ SameControl s t ∧
    s.out <+: t.out ∧ (∃ n, t.keys = keysAfterPolls s n) ∧ (s.mem.wf = true → ∀ a, Plain a → t.cell a = s.cell a)

/-- HALT (44_trap.md, HALT; HALT_MESSAGE is a parameter, 92_eei_decisions.md D30): the run ends in HALTED, R7 is written. -/
def Obligations.HaltEndsTheRun : Prop :=
  ∀ s : State,
    ∃ t, exec .halt s = .next t ∧ t.run = .halted ∧ t.out = s.out ++ Config.haltMessage ∧ t.reg .r7 = s.pc ∧ SameRegsBut [.r7] s t ∧
      t.nzp = s.nzp ∧ t.pc = s.pc ∧ t.err = s.err ∧ t.stopReq = s.stopReq ∧ t.input = s.input ∧ SameMemory s t

/-- TRAP with a code of the table runs that routine, and completes: always with the codes of OUT and HALT, with those of GETC and IN when the
environment answers the read, with those of PUTS and PUTSP when R0 names an end of string in a plain cell; R7 holds the return address and the PC goes on
(44_trap.md, The TRAP instruction; 92_eei_decisions.md D6, D7). -/
def Obligations.TrapCompletesAndReturns : Prop :=
  (∀ (x : BitVec 4) (s : State),
    exec (.trap x 0x20#8) s = exec .getc s ∧ exec (.trap x 0x21#8) s = exec .out s ∧ exec (.trap x 0x22#8) s = exec .puts s ∧
    exec (.trap x 0x23#8) s = exec .inChar s ∧ exec (.trap x 0x24#8) s = exec .putsp s ∧ exec (.trap x 0x25#8) s = exec .halt s) ∧
  ∀ (x : BitVec 4) (v : BitVec 8) (s : State),
    (v = 0x21#8 ∨ v = 0x25#8 ∨ ((v = 0x20#8 ∨ v = 0x23#8) ∧ s.nextInput ≠ none) ∨
      ((v = 0x22#8 ∨ v = 0x24#8) ∧ Plain (s.reg .r0) ∧ s.cell (s.reg .r0) = 0#16)) →
    ∃ t, exec (.trap x v) s = .next t ∧ t.reg .r7 = s.pc ∧ t.pc = s.pc ∧ SameMemory s t ∧ t.err = s.err ∧
      t.run = if v = 0x25#8 then .halted else s.run

/-- A TRAP with a code outside the table writes R7 and ends the run in ERROR, with the fetch address and the raw word in the record
(44_trap.md, Illegal trap code; 92_eei_decisions.md D8, D19). What it says of registers and memory after ERROR is the rules' commit, on which
no claim about the hardware should rest (93_implementation_defined.md U7; log entry 14). -/
def Obligations.IllegalTrapEndsTheRun : Prop :=
  ∀ (x : BitVec 4) (v : BitVec 8) (s : State), v ∉ trapTable →
    ∃ t, exec (.trap x v) s = .next t ∧ t.run = .error ∧ t.err = some ⟨.illegalTrap, s.pc - 1#16, 0xF#4 ++ (x ++ v)⟩ ∧
      t.reg .r7 = s.pc ∧ SameRegsBut [.r7] s t ∧ t.nzp = s.nzp ∧ t.pc = s.pc ∧ t.stopReq = s.stopReq ∧ SameMemory s t ∧ SameConsole s t

/-- An illegal opcode ends the run in ERROR before any effect, with the fetch address and the raw word in the record (60_exceptions.md, G1;
92_eei_decisions.md D19). What it says of registers and memory after ERROR is the rules' commit (93_implementation_defined.md U7; log entry 14). -/
def Obligations.IllegalOpcodeEndsTheRun : Prop :=
  ∀ (rest : BitVec 12) (s : State),
    (exec (.illegal8 rest) s = .next { s with run := .error, err := some ⟨.illegalOpcode, s.pc - 1#16, 0x8#4 ++ rest⟩ }) ∧
    (exec (.illegalD rest) s = .next { s with run := .error, err := some ⟨.illegalOpcode, s.pc - 1#16, 0xD#4 ++ rest⟩ })

/-! ### The whole machine -/

/-- Every step keeps the invariant: canonical memory, at most one flag, an error record exactly in ERROR (10_state.md, B3 and B4). -/
def Obligations.StepKeepsTheInvariant : Prop :=
  ∀ s t : State, s.Inv → step s = .next t → t.Inv

/-- The invariant holds at reset: canonical memory, at most one flag set, an error record exactly in ERROR (70_reset_and_hazards.md, I1). -/
def Obligations.ResetMeetsTheInvariant : Prop :=
  State.reset.Inv

/-- Every state a launched program comes to meets the invariant, the host's stop requests included. -/
def Obligations.LaunchedRunsMeetTheInvariant : Prop :=
  ∀ (origin : Word) (image : List Word) (s t : State), State.launch origin image = some s → Reaches s t → t.Inv

/-- The output stream only grows, and only the TRAP instructions write it (10_state.md, Environment traces). -/
def Obligations.OutputOnlyGrows : Prop :=
  ∀ (i : Instr) (s t : State), exec i s = .next t → s.out <+: t.out ∧ (isTrap i = false → t.out = s.out ∧ t.input = s.input)

/-- The machine never reads its output stream: with another one, and with the same answers of the environment, it does the same (10_state.md,
Environment traces). Both runs get the same answers because the model numbers the draws, which is its own choice (log entries 2 and 3); an
environment that answers according to the output is not spoken of. -/
def Obligations.OutputIsNeverRead : Prop :=
  ∀ (i : Instr) (s t : State) (o : List Byte), exec i s = .next t →
    ∃ t', exec i { s with out := o } = .next t' ∧ { t' with out := [] } = { t with out := [] }

/-! ### Launch and end -/

/-- The state when the run loop starts, for every launch whose image fits (70_reset_and_hazards.md, I1; the flags at 000 are the spec's
decision D21), and no launch for an image that does not. -/
def Obligations.LaunchState : Prop :=
  ∀ (origin : Word) (image : List Word),
    (65536 < origin.toNat + image.length → State.launch origin image = none) ∧
    (origin.toNat + image.length ≤ 65536 → ∃ s, State.launch origin image = some s ∧ (∀ r, s.reg r = 0#16) ∧ s.pc = origin ∧
      s.nzp = ⟨false, false, false⟩ ∧ s.run = .running ∧ s.err = none ∧ s.stopReq = false ∧ s.out = [] ∧
      ∀ a : Word, s.cell a = if origin.toNat ≤ a.toNat then image.getD (a.toNat - origin.toNat) 0#16 else 0#16)

/-- The loader reads the file big-endian, origin first; an odd or an empty file is no launch (70_reset_and_hazards.md, I1). -/
def Obligations.LoaderReadsBigEndian : Prop :=
  (∀ (origin : Word) (image : List Word),
    State.loadObject ((origin :: image).flatMap (fun w => [w.extractLsb' 8 8, w.extractLsb' 0 8])) = State.launch origin image) ∧
  ∀ bytes : List Byte, bytes.length % 2 = 1 ∨ bytes = [] → State.loadObject bytes = none

/-- What reset leaves, with nothing loaded: the values of the launch state; the PC at the model's own ORIGIN (log entry 1). -/
def Obligations.ResetState : Prop :=
  (∀ r, State.reset.reg r = 0#16) ∧ State.reset.pc = 0x3000#16 ∧ State.reset.nzp = ⟨false, false, false⟩ ∧
  (∀ a, State.reset.cell a = 0#16) ∧ State.reset.run = .running ∧ State.reset.err = none ∧ State.reset.stopReq = false ∧
  State.reset.out = []

/-- What a caller sees of an ended run, and its exit status: zero after HALT, not zero after an error (40_fetch_cycle.md, The end of a run;
60_exceptions.md, The host). -/
def Obligations.OutcomeAndExitStatus : Prop :=
  (∀ s : State, s.outcome = if s.run = .running then none else some (s.run, s.err, s.out)) ∧
  exitStatus .halted = some 0 ∧ exitStatus .running = none ∧ (∃ k, exitStatus .error = some k ∧ k ≠ 0 ∧ loadExitStatus none = some k)
end

