-- ==== Sys2Proof/Laws/Encoding.lean ====
section
/-! SUPPORT. Reading a field back from a word built by concatenation, and register fields both ways. -/

namespace Sys2Proof

theorem regOfBits_bitsOfReg (r : Reg) : regOfBits (bitsOfReg r) = r := by
  cases r <;> rfl

theorem bitsOfReg_regOfBits (b : BitVec 3) : bitsOfReg (regOfBits b) = b := by
  revert b; decide

/-- A field that lies in the low part. -/
theorem extract_append_low {n m : Nat} (x : BitVec n) (y : BitVec m) (start len : Nat) (h : start + len ≤ m) :
    (x ++ y).extractLsb' start len = y.extractLsb' start len := by
  ext i hi
  simp [BitVec.getLsbD_append, show start + i < m by omega]

/-- A field that lies in the high part. -/
theorem extract_append_high {n m : Nat} (x : BitVec n) (y : BitVec m) (start len : Nat) (h : m ≤ start) :
    (x ++ y).extractLsb' start len = x.extractLsb' (start - m) len := by
  ext i hi
  simp [BitVec.getLsbD_append, show ¬ start + i < m by omega, show start - m + i = start + i - m by omega]

/-- The whole of a part. -/
theorem extract_whole {n : Nat} (x : BitVec n) : x.extractLsb' 0 n = x := by
  ext i hi
  simp

/-- A bit of the low part. -/
theorem bit_append_low {n m : Nat} (x : BitVec n) (y : BitVec m) (i : Nat) (h : i < m) :
    (x ++ y).getLsbD i = y.getLsbD i := by
  simp [BitVec.getLsbD_append, h]

/-- A bit of the high part. -/
theorem bit_append_high {n m : Nat} (x : BitVec n) (y : BitVec m) (i : Nat) (h : m ≤ i) :
    (x ++ y).getLsbD i = x.getLsbD (i - m) := by
  simp [BitVec.getLsbD_append, show ¬ i < m by omega]

/-- The opcode field of a word. -/
theorem top_append (op : BitVec 4) (rest : BitVec 12) : (op ++ rest : Word).extractLsb' 12 4 = op :=
  (extract_append_high op rest 12 4 (Nat.le_refl _)).trans (extract_whole op)

end Sys2Proof
end

