-- ==== Sys2Proof/Laws/State.lean ====
section
/-! SUPPORT. One lemma per field and update of State, each true by rfl, so that no proof unfolds a record update. -/

namespace Sys2Proof.Machine

section setReg
variable (s : State) (r : Reg) (v : Word)
@[simp] theorem State.setReg_regs : (s.setReg r v).regs = s.regs.set r v := rfl
@[simp] theorem State.setReg_pc : (s.setReg r v).pc = s.pc := rfl
@[simp] theorem State.setReg_nzp : (s.setReg r v).nzp = s.nzp := rfl
@[simp] theorem State.setReg_mem : (s.setReg r v).mem = s.mem := rfl
@[simp] theorem State.setReg_run : (s.setReg r v).run = s.run := rfl
@[simp] theorem State.setReg_err : (s.setReg r v).err = s.err := rfl
@[simp] theorem State.setReg_stopReq : (s.setReg r v).stopReq = s.stopReq := rfl
@[simp] theorem State.setReg_out : (s.setReg r v).out = s.out := rfl
@[simp] theorem State.setReg_keys : (s.setReg r v).keys = s.keys := rfl
@[simp] theorem State.setReg_input : (s.setReg r v).input = s.input := rfl
@[simp] theorem State.setReg_nextKey : (s.setReg r v).nextKey = s.nextKey := rfl
@[simp] theorem State.setReg_keysAfter : (s.setReg r v).keysAfter = s.keysAfter := rfl
@[simp] theorem State.setReg_nextInput : (s.setReg r v).nextInput = s.nextInput := rfl
@[simp] theorem State.setReg_inputAfter : (s.setReg r v).inputAfter = s.inputAfter := rfl
@[simp] theorem State.setReg_cell (b : Word) : (s.setReg r v).cell b = s.cell b := rfl
end setReg

section setPc
variable (s : State) (v : Word)
@[simp] theorem State.setPc_regs : (s.setPc v).regs = s.regs := rfl
@[simp] theorem State.setPc_pc : (s.setPc v).pc = v := rfl
@[simp] theorem State.setPc_nzp : (s.setPc v).nzp = s.nzp := rfl
@[simp] theorem State.setPc_mem : (s.setPc v).mem = s.mem := rfl
@[simp] theorem State.setPc_run : (s.setPc v).run = s.run := rfl
@[simp] theorem State.setPc_err : (s.setPc v).err = s.err := rfl
@[simp] theorem State.setPc_stopReq : (s.setPc v).stopReq = s.stopReq := rfl
@[simp] theorem State.setPc_out : (s.setPc v).out = s.out := rfl
@[simp] theorem State.setPc_keys : (s.setPc v).keys = s.keys := rfl
@[simp] theorem State.setPc_input : (s.setPc v).input = s.input := rfl
@[simp] theorem State.setPc_nextKey : (s.setPc v).nextKey = s.nextKey := rfl
@[simp] theorem State.setPc_keysAfter : (s.setPc v).keysAfter = s.keysAfter := rfl
@[simp] theorem State.setPc_nextInput : (s.setPc v).nextInput = s.nextInput := rfl
@[simp] theorem State.setPc_inputAfter : (s.setPc v).inputAfter = s.inputAfter := rfl
@[simp] theorem State.setPc_reg (r' : Reg) : (s.setPc v).reg r' = s.reg r' := rfl
@[simp] theorem State.setPc_cell (b : Word) : (s.setPc v).cell b = s.cell b := rfl
end setPc

section setCell
variable (s : State) (a v : Word)
@[simp] theorem State.setCell_regs : (s.setCell a v).regs = s.regs := rfl
@[simp] theorem State.setCell_pc : (s.setCell a v).pc = s.pc := rfl
@[simp] theorem State.setCell_nzp : (s.setCell a v).nzp = s.nzp := rfl
@[simp] theorem State.setCell_mem : (s.setCell a v).mem = s.mem.write a v := rfl
@[simp] theorem State.setCell_run : (s.setCell a v).run = s.run := rfl
@[simp] theorem State.setCell_err : (s.setCell a v).err = s.err := rfl
@[simp] theorem State.setCell_stopReq : (s.setCell a v).stopReq = s.stopReq := rfl
@[simp] theorem State.setCell_out : (s.setCell a v).out = s.out := rfl
@[simp] theorem State.setCell_keys : (s.setCell a v).keys = s.keys := rfl
@[simp] theorem State.setCell_input : (s.setCell a v).input = s.input := rfl
@[simp] theorem State.setCell_nextKey : (s.setCell a v).nextKey = s.nextKey := rfl
@[simp] theorem State.setCell_keysAfter : (s.setCell a v).keysAfter = s.keysAfter := rfl
@[simp] theorem State.setCell_nextInput : (s.setCell a v).nextInput = s.nextInput := rfl
@[simp] theorem State.setCell_inputAfter : (s.setCell a v).inputAfter = s.inputAfter := rfl
@[simp] theorem State.setCell_reg (r' : Reg) : (s.setCell a v).reg r' = s.reg r' := rfl
end setCell

section memWrite
variable (s : State) (a v : Word)
@[simp] theorem State.memWrite_regs : (s.memWrite a v).regs = s.regs := rfl
@[simp] theorem State.memWrite_pc : (s.memWrite a v).pc = s.pc := rfl
@[simp] theorem State.memWrite_nzp : (s.memWrite a v).nzp = s.nzp := rfl
@[simp] theorem State.memWrite_mem : (s.memWrite a v).mem = s.mem.write a v := rfl
@[simp] theorem State.memWrite_run : (s.memWrite a v).run = s.run := rfl
@[simp] theorem State.memWrite_err : (s.memWrite a v).err = s.err := rfl
@[simp] theorem State.memWrite_stopReq : (s.memWrite a v).stopReq = s.stopReq := rfl
@[simp] theorem State.memWrite_out : (s.memWrite a v).out = s.out := rfl
@[simp] theorem State.memWrite_keys : (s.memWrite a v).keys = s.keys := rfl
@[simp] theorem State.memWrite_input : (s.memWrite a v).input = s.input := rfl
@[simp] theorem State.memWrite_nextKey : (s.memWrite a v).nextKey = s.nextKey := rfl
@[simp] theorem State.memWrite_keysAfter : (s.memWrite a v).keysAfter = s.keysAfter := rfl
@[simp] theorem State.memWrite_nextInput : (s.memWrite a v).nextInput = s.nextInput := rfl
@[simp] theorem State.memWrite_inputAfter : (s.memWrite a v).inputAfter = s.inputAfter := rfl
@[simp] theorem State.memWrite_reg (r' : Reg) : (s.memWrite a v).reg r' = s.reg r' := rfl
end memWrite

section clearAvailable
variable (s : State)
@[simp] theorem State.clearAvailable_regs : (s.clearAvailable).regs = s.regs := rfl
@[simp] theorem State.clearAvailable_pc : (s.clearAvailable).pc = s.pc := rfl
@[simp] theorem State.clearAvailable_nzp : (s.clearAvailable).nzp = s.nzp := rfl
@[simp] theorem State.clearAvailable_mem : (s.clearAvailable).mem = s.mem.write kbsr (s.cell kbsr &&& 0x7FFF#16) := rfl
@[simp] theorem State.clearAvailable_run : (s.clearAvailable).run = s.run := rfl
@[simp] theorem State.clearAvailable_err : (s.clearAvailable).err = s.err := rfl
@[simp] theorem State.clearAvailable_stopReq : (s.clearAvailable).stopReq = s.stopReq := rfl
@[simp] theorem State.clearAvailable_out : (s.clearAvailable).out = s.out := rfl
@[simp] theorem State.clearAvailable_keys : (s.clearAvailable).keys = s.keys := rfl
@[simp] theorem State.clearAvailable_input : (s.clearAvailable).input = s.input := rfl
@[simp] theorem State.clearAvailable_nextKey : (s.clearAvailable).nextKey = s.nextKey := rfl
@[simp] theorem State.clearAvailable_keysAfter : (s.clearAvailable).keysAfter = s.keysAfter := rfl
@[simp] theorem State.clearAvailable_nextInput : (s.clearAvailable).nextInput = s.nextInput := rfl
@[simp] theorem State.clearAvailable_inputAfter : (s.clearAvailable).inputAfter = s.inputAfter := rfl
@[simp] theorem State.clearAvailable_reg (r' : Reg) : (s.clearAvailable).reg r' = s.reg r' := rfl
end clearAvailable

section setcc
variable (s : State) (v : Word)
@[simp] theorem State.setcc_regs : (s.setcc v).regs = s.regs := rfl
@[simp] theorem State.setcc_pc : (s.setcc v).pc = s.pc := rfl
@[simp] theorem State.setcc_nzp : (s.setcc v).nzp = flagsOf v := rfl
@[simp] theorem State.setcc_mem : (s.setcc v).mem = s.mem := rfl
@[simp] theorem State.setcc_run : (s.setcc v).run = s.run := rfl
@[simp] theorem State.setcc_err : (s.setcc v).err = s.err := rfl
@[simp] theorem State.setcc_stopReq : (s.setcc v).stopReq = s.stopReq := rfl
@[simp] theorem State.setcc_out : (s.setcc v).out = s.out := rfl
@[simp] theorem State.setcc_keys : (s.setcc v).keys = s.keys := rfl
@[simp] theorem State.setcc_input : (s.setcc v).input = s.input := rfl
@[simp] theorem State.setcc_nextKey : (s.setcc v).nextKey = s.nextKey := rfl
@[simp] theorem State.setcc_keysAfter : (s.setcc v).keysAfter = s.keysAfter := rfl
@[simp] theorem State.setcc_nextInput : (s.setcc v).nextInput = s.nextInput := rfl
@[simp] theorem State.setcc_inputAfter : (s.setcc v).inputAfter = s.inputAfter := rfl
@[simp] theorem State.setcc_reg (r' : Reg) : (s.setcc v).reg r' = s.reg r' := rfl
@[simp] theorem State.setcc_cell (b : Word) : (s.setcc v).cell b = s.cell b := rfl
end setcc

section setResult
variable (s : State) (dr : Reg) (v : Word)
@[simp] theorem State.setResult_regs : (s.setResult dr v).regs = s.regs.set dr v := rfl
@[simp] theorem State.setResult_pc : (s.setResult dr v).pc = s.pc := rfl
@[simp] theorem State.setResult_nzp : (s.setResult dr v).nzp = flagsOf v := rfl
@[simp] theorem State.setResult_mem : (s.setResult dr v).mem = s.mem := rfl
@[simp] theorem State.setResult_run : (s.setResult dr v).run = s.run := rfl
@[simp] theorem State.setResult_err : (s.setResult dr v).err = s.err := rfl
@[simp] theorem State.setResult_stopReq : (s.setResult dr v).stopReq = s.stopReq := rfl
@[simp] theorem State.setResult_out : (s.setResult dr v).out = s.out := rfl
@[simp] theorem State.setResult_keys : (s.setResult dr v).keys = s.keys := rfl
@[simp] theorem State.setResult_input : (s.setResult dr v).input = s.input := rfl
@[simp] theorem State.setResult_nextKey : (s.setResult dr v).nextKey = s.nextKey := rfl
@[simp] theorem State.setResult_keysAfter : (s.setResult dr v).keysAfter = s.keysAfter := rfl
@[simp] theorem State.setResult_nextInput : (s.setResult dr v).nextInput = s.nextInput := rfl
@[simp] theorem State.setResult_inputAfter : (s.setResult dr v).inputAfter = s.inputAfter := rfl
@[simp] theorem State.setResult_cell (b : Word) : (s.setResult dr v).cell b = s.cell b := rfl
end setResult

section consoleWrite
variable (s : State) (bs : List Byte)
@[simp] theorem State.consoleWrite_regs : (s.consoleWrite bs).regs = s.regs := rfl
@[simp] theorem State.consoleWrite_pc : (s.consoleWrite bs).pc = s.pc := rfl
@[simp] theorem State.consoleWrite_nzp : (s.consoleWrite bs).nzp = s.nzp := rfl
@[simp] theorem State.consoleWrite_mem : (s.consoleWrite bs).mem = s.mem := rfl
@[simp] theorem State.consoleWrite_run : (s.consoleWrite bs).run = s.run := rfl
@[simp] theorem State.consoleWrite_err : (s.consoleWrite bs).err = s.err := rfl
@[simp] theorem State.consoleWrite_stopReq : (s.consoleWrite bs).stopReq = s.stopReq := rfl
@[simp] theorem State.consoleWrite_out : (s.consoleWrite bs).out = s.out ++ bs := rfl
@[simp] theorem State.consoleWrite_keys : (s.consoleWrite bs).keys = s.keys := rfl
@[simp] theorem State.consoleWrite_input : (s.consoleWrite bs).input = s.input := rfl
@[simp] theorem State.consoleWrite_nextKey : (s.consoleWrite bs).nextKey = s.nextKey := rfl
@[simp] theorem State.consoleWrite_keysAfter : (s.consoleWrite bs).keysAfter = s.keysAfter := rfl
@[simp] theorem State.consoleWrite_nextInput : (s.consoleWrite bs).nextInput = s.nextInput := rfl
@[simp] theorem State.consoleWrite_inputAfter : (s.consoleWrite bs).inputAfter = s.inputAfter := rfl
@[simp] theorem State.consoleWrite_reg (r' : Reg) : (s.consoleWrite bs).reg r' = s.reg r' := rfl
@[simp] theorem State.consoleWrite_cell (b : Word) : (s.consoleWrite bs).cell b = s.cell b := rfl
end consoleWrite

section raiseFatal
variable (s : State) (k : ErrorKind) (w : Word)
@[simp] theorem State.raiseFatal_regs : (s.raiseFatal k w).regs = s.regs := rfl
@[simp] theorem State.raiseFatal_pc : (s.raiseFatal k w).pc = s.pc := rfl
@[simp] theorem State.raiseFatal_nzp : (s.raiseFatal k w).nzp = s.nzp := rfl
@[simp] theorem State.raiseFatal_mem : (s.raiseFatal k w).mem = s.mem := rfl
@[simp] theorem State.raiseFatal_run : (s.raiseFatal k w).run = .error := rfl
@[simp] theorem State.raiseFatal_err : (s.raiseFatal k w).err = some ⟨k, s.pc - 1#16, w⟩ := rfl
@[simp] theorem State.raiseFatal_stopReq : (s.raiseFatal k w).stopReq = s.stopReq := rfl
@[simp] theorem State.raiseFatal_out : (s.raiseFatal k w).out = s.out := rfl
@[simp] theorem State.raiseFatal_keys : (s.raiseFatal k w).keys = s.keys := rfl
@[simp] theorem State.raiseFatal_input : (s.raiseFatal k w).input = s.input := rfl
@[simp] theorem State.raiseFatal_nextKey : (s.raiseFatal k w).nextKey = s.nextKey := rfl
@[simp] theorem State.raiseFatal_keysAfter : (s.raiseFatal k w).keysAfter = s.keysAfter := rfl
@[simp] theorem State.raiseFatal_nextInput : (s.raiseFatal k w).nextInput = s.nextInput := rfl
@[simp] theorem State.raiseFatal_inputAfter : (s.raiseFatal k w).inputAfter = s.inputAfter := rfl
@[simp] theorem State.raiseFatal_reg (r' : Reg) : (s.raiseFatal k w).reg r' = s.reg r' := rfl
@[simp] theorem State.raiseFatal_cell (b : Word) : (s.raiseFatal k w).cell b = s.cell b := rfl
end raiseFatal

section trapEntry
variable (s : State)
@[simp] theorem State.trapEntry_regs : (s.trapEntry).regs = s.regs.set .r7 s.pc := rfl
@[simp] theorem State.trapEntry_pc : (s.trapEntry).pc = s.pc := rfl
@[simp] theorem State.trapEntry_nzp : (s.trapEntry).nzp = s.nzp := rfl
@[simp] theorem State.trapEntry_mem : (s.trapEntry).mem = s.mem := rfl
@[simp] theorem State.trapEntry_run : (s.trapEntry).run = s.run := rfl
@[simp] theorem State.trapEntry_err : (s.trapEntry).err = s.err := rfl
@[simp] theorem State.trapEntry_stopReq : (s.trapEntry).stopReq = s.stopReq := rfl
@[simp] theorem State.trapEntry_out : (s.trapEntry).out = s.out := rfl
@[simp] theorem State.trapEntry_keys : (s.trapEntry).keys = s.keys := rfl
@[simp] theorem State.trapEntry_input : (s.trapEntry).input = s.input := rfl
@[simp] theorem State.trapEntry_nextKey : (s.trapEntry).nextKey = s.nextKey := rfl
@[simp] theorem State.trapEntry_keysAfter : (s.trapEntry).keysAfter = s.keysAfter := rfl
@[simp] theorem State.trapEntry_nextInput : (s.trapEntry).nextInput = s.nextInput := rfl
@[simp] theorem State.trapEntry_inputAfter : (s.trapEntry).inputAfter = s.inputAfter := rfl
@[simp] theorem State.trapEntry_cell (b : Word) : (s.trapEntry).cell b = s.cell b := rfl
end trapEntry

section haltRun
variable (s : State)
@[simp] theorem State.haltRun_regs : (s.haltRun).regs = s.regs := rfl
@[simp] theorem State.haltRun_pc : (s.haltRun).pc = s.pc := rfl
@[simp] theorem State.haltRun_nzp : (s.haltRun).nzp = s.nzp := rfl
@[simp] theorem State.haltRun_mem : (s.haltRun).mem = s.mem := rfl
@[simp] theorem State.haltRun_run : (s.haltRun).run = .halted := rfl
@[simp] theorem State.haltRun_err : (s.haltRun).err = s.err := rfl
@[simp] theorem State.haltRun_stopReq : (s.haltRun).stopReq = s.stopReq := rfl
@[simp] theorem State.haltRun_out : (s.haltRun).out = s.out := rfl
@[simp] theorem State.haltRun_keys : (s.haltRun).keys = s.keys := rfl
@[simp] theorem State.haltRun_input : (s.haltRun).input = s.input := rfl
@[simp] theorem State.haltRun_nextKey : (s.haltRun).nextKey = s.nextKey := rfl
@[simp] theorem State.haltRun_keysAfter : (s.haltRun).keysAfter = s.keysAfter := rfl
@[simp] theorem State.haltRun_nextInput : (s.haltRun).nextInput = s.nextInput := rfl
@[simp] theorem State.haltRun_inputAfter : (s.haltRun).inputAfter = s.inputAfter := rfl
@[simp] theorem State.haltRun_reg (r' : Reg) : (s.haltRun).reg r' = s.reg r' := rfl
@[simp] theorem State.haltRun_cell (b : Word) : (s.haltRun).cell b = s.cell b := rfl
end haltRun

section stopRun
variable (s : State)
@[simp] theorem State.stopRun_regs : (s.stopRun).regs = s.regs := rfl
@[simp] theorem State.stopRun_pc : (s.stopRun).pc = s.pc := rfl
@[simp] theorem State.stopRun_nzp : (s.stopRun).nzp = s.nzp := rfl
@[simp] theorem State.stopRun_mem : (s.stopRun).mem = s.mem := rfl
@[simp] theorem State.stopRun_run : (s.stopRun).run = .stopped := rfl
@[simp] theorem State.stopRun_err : (s.stopRun).err = s.err := rfl
@[simp] theorem State.stopRun_stopReq : (s.stopRun).stopReq = s.stopReq := rfl
@[simp] theorem State.stopRun_out : (s.stopRun).out = s.out := rfl
@[simp] theorem State.stopRun_keys : (s.stopRun).keys = s.keys := rfl
@[simp] theorem State.stopRun_input : (s.stopRun).input = s.input := rfl
@[simp] theorem State.stopRun_nextKey : (s.stopRun).nextKey = s.nextKey := rfl
@[simp] theorem State.stopRun_keysAfter : (s.stopRun).keysAfter = s.keysAfter := rfl
@[simp] theorem State.stopRun_nextInput : (s.stopRun).nextInput = s.nextInput := rfl
@[simp] theorem State.stopRun_inputAfter : (s.stopRun).inputAfter = s.inputAfter := rfl
@[simp] theorem State.stopRun_reg (r' : Reg) : (s.stopRun).reg r' = s.reg r' := rfl
@[simp] theorem State.stopRun_cell (b : Word) : (s.stopRun).cell b = s.cell b := rfl
end stopRun

section requestStop
variable (s : State)
@[simp] theorem State.requestStop_regs : (s.requestStop).regs = s.regs := rfl
@[simp] theorem State.requestStop_pc : (s.requestStop).pc = s.pc := rfl
@[simp] theorem State.requestStop_nzp : (s.requestStop).nzp = s.nzp := rfl
@[simp] theorem State.requestStop_mem : (s.requestStop).mem = s.mem := rfl
@[simp] theorem State.requestStop_run : (s.requestStop).run = s.run := rfl
@[simp] theorem State.requestStop_err : (s.requestStop).err = s.err := rfl
@[simp] theorem State.requestStop_stopReq : (s.requestStop).stopReq = true := rfl
@[simp] theorem State.requestStop_out : (s.requestStop).out = s.out := rfl
@[simp] theorem State.requestStop_keys : (s.requestStop).keys = s.keys := rfl
@[simp] theorem State.requestStop_input : (s.requestStop).input = s.input := rfl
@[simp] theorem State.requestStop_nextKey : (s.requestStop).nextKey = s.nextKey := rfl
@[simp] theorem State.requestStop_keysAfter : (s.requestStop).keysAfter = s.keysAfter := rfl
@[simp] theorem State.requestStop_nextInput : (s.requestStop).nextInput = s.nextInput := rfl
@[simp] theorem State.requestStop_inputAfter : (s.requestStop).inputAfter = s.inputAfter := rfl
@[simp] theorem State.requestStop_reg (r' : Reg) : (s.requestStop).reg r' = s.reg r' := rfl
@[simp] theorem State.requestStop_cell (b : Word) : (s.requestStop).cell b = s.cell b := rfl
end requestStop

section placeWord
variable (s : State) (w : Word)
@[simp] theorem State.placeWord_regs : (s.placeWord w).regs = s.regs := rfl
@[simp] theorem State.placeWord_pc : (s.placeWord w).pc = s.pc := rfl
@[simp] theorem State.placeWord_nzp : (s.placeWord w).nzp = s.nzp := rfl
@[simp] theorem State.placeWord_mem : (s.placeWord w).mem = s.mem.write s.pc w := rfl
@[simp] theorem State.placeWord_run : (s.placeWord w).run = s.run := rfl
@[simp] theorem State.placeWord_err : (s.placeWord w).err = s.err := rfl
@[simp] theorem State.placeWord_stopReq : (s.placeWord w).stopReq = s.stopReq := rfl
@[simp] theorem State.placeWord_out : (s.placeWord w).out = s.out := rfl
@[simp] theorem State.placeWord_keys : (s.placeWord w).keys = s.keys := rfl
@[simp] theorem State.placeWord_input : (s.placeWord w).input = s.input := rfl
@[simp] theorem State.placeWord_nextKey : (s.placeWord w).nextKey = s.nextKey := rfl
@[simp] theorem State.placeWord_keysAfter : (s.placeWord w).keysAfter = s.keysAfter := rfl
@[simp] theorem State.placeWord_nextInput : (s.placeWord w).nextInput = s.nextInput := rfl
@[simp] theorem State.placeWord_inputAfter : (s.placeWord w).inputAfter = s.inputAfter := rfl
@[simp] theorem State.placeWord_reg (r' : Reg) : (s.placeWord w).reg r' = s.reg r' := rfl
end placeWord

end Sys2Proof.Machine
end

