-- ==== Sys2Proof/Laws/Memory.lean ====
section
/-! SUPPORT. The laws of the register file and of memory: a read after a write, the frame of a write, and the canonical form every memory
operation keeps. -/

namespace Sys2Proof.Machine

/-! ### Registers -/

theorem RegFile.get_set (f : RegFile) (r r' : Reg) (v : Word) : (f.set r v).get r' = if r' = r then v else f.get r' := by
  cases r <;> cases r' <;> rfl

@[simp] theorem RegFile.get_set_self (f : RegFile) (r : Reg) (v : Word) : (f.set r v).get r = v := by
  cases r <;> rfl

theorem RegFile.get_set_ne (f : RegFile) {r r' : Reg} (h : r' ≠ r) (v : Word) : (f.set r v).get r' = f.get r' := by
  rw [RegFile.get_set, if_neg h]

/-- Two register files with the same registers are equal. -/
theorem RegFile.ext_get {f g : RegFile} (h : ∀ r, f.get r = g.get r) : f = g := by
  obtain ⟨_, _, _, _, _, _, _, _⟩ := f
  obtain ⟨_, _, _, _, _, _, _, _⟩ := g
  have := h .r0; have := h .r1; have := h .r2; have := h .r3
  have := h .r4; have := h .r5; have := h .r6; have := h .r7
  simp_all [RegFile.get]

/-- What a register reads after a register write. -/
theorem State.reg_setReg (s : State) (r r' : Reg) (v : Word) : (s.setReg r v).reg r' = if r' = r then v else s.reg r' :=
  RegFile.get_set s.regs r r' v

theorem State.reg_setResult (s : State) (r r' : Reg) (v : Word) : (s.setResult r v).reg r' = if r' = r then v else s.reg r' :=
  RegFile.get_set s.regs r r' v

theorem State.reg_trapEntry (s : State) (r' : Reg) : s.trapEntry.reg r' = if r' = .r7 then s.pc else s.reg r' :=
  RegFile.get_set s.regs .r7 r' s.pc

/-! ### Memory -/

theorem Memory.wfFrom_mono {lo lo' : Nat} (h : lo' ≤ lo) {m : Memory} (hm : m.wfFrom lo) : m.wfFrom lo' := by
  cases m with
  | nil => rfl
  | cons e rest =>
    obtain ⟨k, v⟩ := e
    simp only [Memory.wfFrom, Bool.and_eq_true, decide_eq_true_eq] at hm ⊢
    exact ⟨⟨⟨by omega, hm.1.1.2⟩, hm.1.2⟩, hm.2⟩

/-- An address below every listed one reads as 0x0000. -/
theorem Memory.read_below {lo : Nat} {m : Memory} (hm : m.wfFrom lo) {a : Word} (ha : a.toNat < lo) : m.read a = 0#16 := by
  induction m generalizing lo with
  | nil => rfl
  | cons e rest ih =>
    obtain ⟨k, v⟩ := e
    simp only [Memory.wfFrom, Bool.and_eq_true, decide_eq_true_eq] at hm
    rw [Memory.read, if_neg (by omega)]
    exact ih hm.2 (by omega)

/-- A write keeps the canonical form. -/
theorem Memory.wfFrom_write {lo : Nat} {m : Memory} (hm : m.wfFrom lo) (a v : Word) (ha : lo ≤ a.toNat) :
    (m.write a v).wfFrom lo := by
  have hlt := a.isLt
  induction m generalizing lo with
  | nil =>
    unfold Memory.write
    split
    · rfl
    · simp_all [Memory.wfFrom]
  | cons e rest ih =>
    obtain ⟨k, u⟩ := e
    simp only [Memory.wfFrom, Bool.and_eq_true, decide_eq_true_eq] at hm
    unfold Memory.write
    split
    · rename_i hk
      simp only [Memory.wfFrom, Bool.and_eq_true, decide_eq_true_eq]
      exact ⟨hm.1, ih hm.2 (by omega)⟩
    · rename_i hk
      by_cases hke : k = a.toNat
      · subst hke
        by_cases hv : v = 0#16
        · simpa [hv] using Memory.wfFrom_mono (by omega) hm.2
        · simpa [hv, Memory.wfFrom, hlt, ha] using hm.2
      · by_cases hv : v = 0#16
        · simpa [hv, hke, Memory.wfFrom, hm.1.1.2, hm.1.2, hm.1.1.1] using hm.2
        · have : a.toNat + 1 ≤ k := by omega
          simpa [hv, hke, Memory.wfFrom, hlt, ha, hm.1.1.2, hm.1.2, this] using hm.2

/-- Every memory operation keeps the canonical form. -/
theorem Memory.wf_write {m : Memory} (hm : m.wf) (a v : Word) : (m.write a v).wf :=
  Memory.wfFrom_write hm a v (Nat.zero_le _)

/-- What a cell reads after a write, for memory in its canonical form. -/
theorem Memory.read_write {m : Memory} (hm : m.wf) (a v b : Word) : (m.write a v).read b = if b = a then v else m.read b := by
  suffices h : ∀ lo, m.wfFrom lo → (m.write a v).read b = if b = a then v else m.read b from h 0 hm
  clear hm
  intro lo hm
  induction m generalizing lo with
  | nil =>
    unfold Memory.write
    by_cases hv : v = 0#16
    · simp [hv, Memory.read]
    · by_cases hb : b = a
      · simp [hv, Memory.read, hb]
      · have : a.toNat ≠ b.toNat := fun h => hb (BitVec.eq_of_toNat_eq h.symm)
        simp [hv, Memory.read, hb, this]
  | cons e rest ih =>
    obtain ⟨k, u⟩ := e
    simp only [Memory.wfFrom, Bool.and_eq_true, decide_eq_true_eq] at hm
    unfold Memory.write
    by_cases hk : k < a.toNat
    · rw [if_pos hk]
      simp only [Memory.read, ih _ hm.2]
      by_cases hb : b = a
      · subst hb; simp [show k ≠ b.toNat by omega]
      · simp [hb]
    · rw [if_neg hk]
      by_cases hb : b = a
      · subst hb
        by_cases hke : k = b.toNat
        · by_cases hv : v = 0#16
          · simp [hv, hke, Memory.read_below hm.2 (a := b) (by omega)]
          · simp [hv, hke, Memory.read]
        · by_cases hv : v = 0#16
          · simp [hv, hke, Memory.read, Memory.read_below hm.2 (a := b) (by omega)]
          · simp [hv, Memory.read]
      · have hne : a.toNat ≠ b.toNat := fun h => hb (BitVec.eq_of_toNat_eq h.symm)
        by_cases hke : k = a.toNat
        · by_cases hv : v = 0#16 <;> simp [hv, hke, hb, hne, Memory.read]
        · by_cases hv : v = 0#16 <;> simp [hv, hke, hb, hne, Memory.read]

/-- Two memories in canonical form that read alike are equal. -/
theorem Memory.ext_read {m m' : Memory} (hm : m.wf) (hm' : m'.wf) (h : ∀ a : Word, m.read a = m'.read a) : m = m' := by
  suffices key : ∀ lo, m.wfFrom lo → m'.wfFrom lo → m = m' from key 0 hm hm'
  clear hm hm'
  intro lo hm hm'
  induction m generalizing lo m' with
  | nil =>
    cases m' with
    | nil => rfl
    | cons e rest =>
      obtain ⟨k, v⟩ := e
      simp only [Memory.wfFrom, Bool.and_eq_true, decide_eq_true_eq] at hm'
      have := h (BitVec.ofNat 16 k)
      simp [Memory.read, Nat.mod_eq_of_lt hm'.1.1.2] at this
      exact absurd this.symm hm'.1.2
  | cons e rest ih =>
    obtain ⟨k, v⟩ := e
    cases m' with
    | nil =>
      simp only [Memory.wfFrom, Bool.and_eq_true, decide_eq_true_eq] at hm
      have := h (BitVec.ofNat 16 k)
      simp [Memory.read, Nat.mod_eq_of_lt hm.1.1.2] at this
      exact absurd this hm.1.2
    | cons e' rest' =>
      obtain ⟨k', v'⟩ := e'
      simp only [Memory.wfFrom, Bool.and_eq_true, decide_eq_true_eq] at hm hm'
      have hk : k = k' := by
        rcases Nat.lt_trichotomy k k' with hlt | heq | hgt
        · have h1 := h (BitVec.ofNat 16 k)
          have h2 : Memory.read rest' (BitVec.ofNat 16 k) = 0#16 :=
            Memory.read_below hm'.2 (by simp [Nat.mod_eq_of_lt hm.1.1.2]; omega)
          simp [Memory.read, Nat.mod_eq_of_lt hm.1.1.2, show k' ≠ k by omega, h2] at h1
          exact absurd h1 hm.1.2
        · exact heq
        · have h1 := h (BitVec.ofNat 16 k')
          have h2 : Memory.read rest (BitVec.ofNat 16 k') = 0#16 :=
            Memory.read_below hm.2 (by simp [Nat.mod_eq_of_lt hm'.1.1.2]; omega)
          simp [Memory.read, Nat.mod_eq_of_lt hm'.1.1.2, show k ≠ k' by omega, h2] at h1
          exact absurd h1.symm hm'.1.2
      subst hk
      have hv : v = v' := by
        have := h (BitVec.ofNat 16 k)
        simpa [Memory.read, Nat.mod_eq_of_lt hm.1.1.2] using this
      subst hv
      have hrest : rest = rest' := by
        refine ih (fun a => ?_) _ hm.2 hm'.2
        by_cases ha : k = a.toNat
        · rw [Memory.read_below hm.2 (by omega), Memory.read_below hm'.2 (by omega)]
        · simpa [Memory.read, ha] using h a
      rw [hrest]

/-- A cell after a cell write, memory being in its canonical form. -/
theorem State.cell_setCell {s : State} (hm : s.mem.wf) (a v b : Word) : (s.setCell a v).cell b = if b = a then v else s.cell b :=
  Memory.read_write hm a v b

end Sys2Proof.Machine
end

