-- ==== Sys2Proof/Laws/Ops.lean ====
section
/-! SUPPORT. What each shared operation of Machine/Ops.lean can do, said once: the keyboard poll, the side-effecting read, the console
read, the fetch. -/

namespace Sys2Proof.Machine

/-! ### The environment's draws (10_state.md R53) -/

/-- A settled answer is drawn first. -/
@[simp] theorem Draws.next_known (free : Nat → Option Word) (a : Option Word) (rest : List (Option Word)) (n : Nat) :
    Draws.next free ⟨a :: rest, n⟩ = (a, ⟨rest, n⟩) := rfl

/-- With no answer settled the draw is the environment's own. -/
@[simp] theorem Draws.next_free (free : Nat → Option Word) (n : Nat) : Draws.next free ⟨[], n⟩ = (free n, ⟨[], n + 1⟩) := rfl

/-! ### The poll (20_memory.md R66) -/

/-- The two cases of a poll: no key, which changes no cell, and a key. The draw is used up in both. -/
theorem State.poll_cases (s : State) :
    (s.nextKey = none ∧ s.poll = { s with keys := s.keysAfter }) ∨
    (∃ k, s.nextKey = some k ∧ s.poll = (({ s with keys := s.keysAfter } : State).setCell kbsr 0x8000#16).setCell kbdr k) := by
  unfold State.poll State.keyPoll
  cases s.nextKey with
  | none => exact .inl ⟨rfl, rfl⟩
  | some k => exact .inr ⟨k, rfl, rfl⟩

@[simp] theorem State.poll_regs (s : State) : s.poll.regs = s.regs := by
  obtain ⟨_, h⟩ | ⟨_, _, h⟩ := s.poll_cases <;> simp [h]

@[simp] theorem State.poll_pc (s : State) : s.poll.pc = s.pc := by
  obtain ⟨_, h⟩ | ⟨_, _, h⟩ := s.poll_cases <;> simp [h]

@[simp] theorem State.poll_nzp (s : State) : s.poll.nzp = s.nzp := by
  obtain ⟨_, h⟩ | ⟨_, _, h⟩ := s.poll_cases <;> simp [h]

@[simp] theorem State.poll_run (s : State) : s.poll.run = s.run := by
  obtain ⟨_, h⟩ | ⟨_, _, h⟩ := s.poll_cases <;> simp [h]

@[simp] theorem State.poll_err (s : State) : s.poll.err = s.err := by
  obtain ⟨_, h⟩ | ⟨_, _, h⟩ := s.poll_cases <;> simp [h]

@[simp] theorem State.poll_stopReq (s : State) : s.poll.stopReq = s.stopReq := by
  obtain ⟨_, h⟩ | ⟨_, _, h⟩ := s.poll_cases <;> simp [h]

@[simp] theorem State.poll_out (s : State) : s.poll.out = s.out := by
  obtain ⟨_, h⟩ | ⟨_, _, h⟩ := s.poll_cases <;> simp [h]

@[simp] theorem State.poll_input (s : State) : s.poll.input = s.input := by
  obtain ⟨_, h⟩ | ⟨_, _, h⟩ := s.poll_cases <;> simp [h]

@[simp] theorem State.poll_reg (s : State) (r : Reg) : s.poll.reg r = s.reg r := by
  simp [State.reg]

/-- A poll uses up one draw. -/
@[simp] theorem State.poll_keys (s : State) : s.poll.keys = s.keysAfter := by
  obtain ⟨_, h⟩ | ⟨_, _, h⟩ := s.poll_cases <;> simp [h]

theorem State.poll_wf {s : State} (hm : s.mem.wf) : s.poll.mem.wf := by
  obtain ⟨_, h⟩ | ⟨_, _, h⟩ := s.poll_cases <;> rw [h]
  · exact hm
  · exact Memory.wf_write (Memory.wf_write hm _ _) _ _

/-- A poll leaves plain storage alone. -/
theorem State.poll_cell_plain {s : State} (hm : s.mem.wf) {b : Word} (hb : Plain b) : s.poll.cell b = s.cell b := by
  obtain ⟨_, h⟩ | ⟨_, _, h⟩ := s.poll_cases <;> rw [h]
  · rfl
  · exact (State.cell_setCell (Memory.wf_write hm _ _) _ _ _).trans
      ((if_neg hb.2).trans ((Memory.read_write hm _ _ _).trans (if_neg hb.1)))

/-! ### The side-effecting read (20_memory.md R64, R65, R67) -/

theorem State.memRead_plain (s : State) {a : Word} (ha : Plain a) : s.memRead a = (s.cell a, s) := by
  rw [State.memRead, if_neg ha.1, if_neg ha.2]

theorem State.memRead_kbsr (s : State) : s.memRead kbsr = (s.poll.cell kbsr, s.poll) := rfl

theorem State.memRead_kbdr (s : State) : s.memRead kbdr = (s.cell kbdr, s.clearAvailable) := rfl

/-- The three cases of a read. -/
theorem State.memRead_cases (s : State) (a : Word) :
    (a = kbsr ∧ s.memRead a = (s.poll.cell kbsr, s.poll)) ∨ (a = kbdr ∧ s.memRead a = (s.cell kbdr, s.clearAvailable)) ∨
    (Plain a ∧ s.memRead a = (s.cell a, s)) := by
  by_cases h1 : a = kbsr
  · exact .inl ⟨h1, by rw [State.memRead, if_pos h1]⟩
  · by_cases h2 : a = kbdr
    · exact .inr (.inl ⟨h2, by rw [State.memRead, if_neg h1, if_pos h2]⟩)
    · exact .inr (.inr ⟨⟨h1, h2⟩, s.memRead_plain ⟨h1, h2⟩⟩)

@[simp] theorem State.memRead_regs (s : State) (a : Word) : (s.memRead a).2.regs = s.regs := by
  obtain ⟨_, h⟩ | ⟨_, h⟩ | ⟨_, h⟩ := s.memRead_cases a <;> rw [h] <;> simp

@[simp] theorem State.memRead_pc (s : State) (a : Word) : (s.memRead a).2.pc = s.pc := by
  obtain ⟨_, h⟩ | ⟨_, h⟩ | ⟨_, h⟩ := s.memRead_cases a <;> rw [h] <;> simp

@[simp] theorem State.memRead_nzp (s : State) (a : Word) : (s.memRead a).2.nzp = s.nzp := by
  obtain ⟨_, h⟩ | ⟨_, h⟩ | ⟨_, h⟩ := s.memRead_cases a <;> rw [h] <;> simp

@[simp] theorem State.memRead_run (s : State) (a : Word) : (s.memRead a).2.run = s.run := by
  obtain ⟨_, h⟩ | ⟨_, h⟩ | ⟨_, h⟩ := s.memRead_cases a <;> rw [h] <;> simp

@[simp] theorem State.memRead_err (s : State) (a : Word) : (s.memRead a).2.err = s.err := by
  obtain ⟨_, h⟩ | ⟨_, h⟩ | ⟨_, h⟩ := s.memRead_cases a <;> rw [h] <;> simp

@[simp] theorem State.memRead_stopReq (s : State) (a : Word) : (s.memRead a).2.stopReq = s.stopReq := by
  obtain ⟨_, h⟩ | ⟨_, h⟩ | ⟨_, h⟩ := s.memRead_cases a <;> rw [h] <;> simp

@[simp] theorem State.memRead_out (s : State) (a : Word) : (s.memRead a).2.out = s.out := by
  obtain ⟨_, h⟩ | ⟨_, h⟩ | ⟨_, h⟩ := s.memRead_cases a <;> rw [h] <;> simp

@[simp] theorem State.memRead_input (s : State) (a : Word) : (s.memRead a).2.input = s.input := by
  obtain ⟨_, h⟩ | ⟨_, h⟩ | ⟨_, h⟩ := s.memRead_cases a <;> rw [h] <;> simp

@[simp] theorem State.memRead_reg (s : State) (a : Word) (r : Reg) : (s.memRead a).2.reg r = s.reg r := by
  simp [State.reg]

/-- Only a read of the status register uses up a draw. -/
theorem State.memRead_keys (s : State) (a : Word) : (s.memRead a).2.keys = if a = kbsr then s.keysAfter else s.keys := by
  obtain ⟨ha, h⟩ | ⟨ha, h⟩ | ⟨ha, h⟩ := s.memRead_cases a <;> rw [h]
  · simp [ha]
  · simp [ha, kbsr, kbdr]
  · simp [ha.1]

theorem State.memRead_wf {s : State} (hm : s.mem.wf) (a : Word) : (s.memRead a).2.mem.wf := by
  obtain ⟨_, h⟩ | ⟨_, h⟩ | ⟨_, h⟩ := s.memRead_cases a <;> rw [h]
  · exact State.poll_wf hm
  · exact Memory.wf_write hm _ _
  · exact hm

/-- A read leaves plain storage alone, whichever address it reads. -/
theorem State.memRead_cell_plain {s : State} (hm : s.mem.wf) (a : Word) {b : Word} (hb : Plain b) :
    (s.memRead a).2.cell b = s.cell b := by
  obtain ⟨_, h⟩ | ⟨_, h⟩ | ⟨_, h⟩ := s.memRead_cases a <;> rw [h]
  · exact State.poll_cell_plain hm hb
  · exact (State.cell_setCell hm _ _ _).trans (if_neg hb.1)

/-- The pointer of LDI and STI is a read (43_load_store.md R180). -/
@[simp] theorem indirect_eq (s : State) (off9 : BitVec 9) : indirect s off9 = s.memRead (pcRelative s off9) := rfl

/-! ### The console read and the fetch -/

/-- A console read delivers the Word drawn and touches nothing else (44_trap.md R211). -/
theorem State.consoleRead_eq_some {s t : State} {c : Word} :
    s.consoleRead = some (c, t) ↔ s.nextInput = some c ∧ t = { s with input := s.inputAfter } := by
  simp [State.consoleRead, eq_comm]

/-- A console read waits exactly where the environment does not answer it. -/
theorem State.consoleRead_eq_none {s : State} : s.consoleRead = none ↔ s.nextInput = none := by
  simp [State.consoleRead]

/-- A fetch from plain storage reads the cell at the PC and increments the PC, nothing else (40_fetch_cycle.md R122). -/
theorem State.fetch_plain (s : State) (h : Plain s.pc) : s.fetch = (s.cell s.pc, s.setPc (s.pc + 1#16)) := by
  simp only [State.fetch, s.memRead_plain h]

end Sys2Proof.Machine
end

