-- ==== Sys2Proof/Laws/PerInstr.lean ====
section
/-! SUPPORT. A law of every instruction as syntax: bits 15:12 of its word are its opcode in the map of 30_encoding.md R100. -/

namespace Sys2Proof.Laws.OpcodeField

/-- The opcode of an instruction's row in the opcode map (R100). -/
def opcode : Instr → BitVec 4
  | .br _ _ _ _ => 0x0
  | .addReg _ _ _ => 0x1
  | .addImm _ _ _ => 0x1
  | .ld _ _ => 0x2
  | .st _ _ => 0x3
  | .jsr _ => 0x4
  | .jsrr _ => 0x4
  | .andReg _ _ _ => 0x5
  | .andImm _ _ _ => 0x5
  | .ldr _ _ _ => 0x6
  | .str _ _ _ => 0x7
  | .illegal8 _ => 0x8
  | .not _ _ => 0x9
  | .ldi _ _ => 0xA
  | .sti _ _ => 0xB
  | .jmp _ => 0xC
  | .ret => 0xC
  | .illegalD _ => 0xD
  | .lea _ _ => 0xE
  | .trap _ _ => 0xF
  | .getc => 0xF
  | .out => 0xF
  | .puts => 0xF
  | .inChar => 0xF
  | .putsp => 0xF
  | .halt => 0xF

/-- The encoder puts the opcode in bits 15:12. -/
def Statement (i : Instr) : Prop := (encode i).extractLsb' 12 4 = opcode i

theorem addReg (dr sr1 sr2 : Reg) : Statement (.addReg dr sr1 sr2) :=
  top_append _ _

theorem addImm (dr sr1 : Reg) (imm5 : BitVec 5) : Statement (.addImm dr sr1 imm5) :=
  top_append _ _

theorem andReg (dr sr1 sr2 : Reg) : Statement (.andReg dr sr1 sr2) :=
  top_append _ _

theorem andImm (dr sr1 : Reg) (imm5 : BitVec 5) : Statement (.andImm dr sr1 imm5) :=
  top_append _ _

theorem not (dr sr : Reg) : Statement (.not dr sr) :=
  top_append _ _

theorem br (n z p : Bool) (off9 : BitVec 9) : Statement (.br n z p off9) :=
  top_append _ _

theorem jmp (base : Reg) : Statement (.jmp base) :=
  top_append _ _

theorem ret : Statement .ret :=
  top_append _ _

theorem jsr (off11 : BitVec 11) : Statement (.jsr off11) :=
  top_append _ _

theorem jsrr (base : Reg) : Statement (.jsrr base) :=
  top_append _ _

theorem ld (dr : Reg) (off9 : BitVec 9) : Statement (.ld dr off9) :=
  top_append _ _

theorem ldi (dr : Reg) (off9 : BitVec 9) : Statement (.ldi dr off9) :=
  top_append _ _

theorem lea (dr : Reg) (off9 : BitVec 9) : Statement (.lea dr off9) :=
  top_append _ _

theorem st (sr : Reg) (off9 : BitVec 9) : Statement (.st sr off9) :=
  top_append _ _

theorem sti (sr : Reg) (off9 : BitVec 9) : Statement (.sti sr off9) :=
  top_append _ _

theorem ldr (dr base : Reg) (off6 : BitVec 6) : Statement (.ldr dr base off6) :=
  top_append _ _

theorem str (sr base : Reg) (off6 : BitVec 6) : Statement (.str sr base off6) :=
  top_append _ _

theorem trap (ignored : BitVec 4) (vect : BitVec 8) : Statement (.trap ignored vect) :=
  top_append _ _

theorem getc : Statement .getc :=
  top_append _ _

theorem out : Statement .out :=
  top_append _ _

theorem puts : Statement .puts :=
  top_append _ _

theorem inChar : Statement .inChar :=
  top_append _ _

theorem putsp : Statement .putsp :=
  top_append _ _

theorem halt : Statement .halt :=
  top_append _ _

theorem illegal8 (rest : BitVec 12) : Statement (.illegal8 rest) :=
  top_append _ _

theorem illegalD (rest : BitVec 12) : Statement (.illegalD rest) :=
  top_append _ _

end Sys2Proof.Laws.OpcodeField
end

