-- ==== Sys2Proof/Laws/Scan.lean ====
section
/-! SUPPORT. What the string scan of PUTS and PUTSP can do (44_trap.md R216, R218, R221): a scan that ends has one last read, and it changes
the keyboard cells, the draws of KeyPoll and the output only. -/

namespace Sys2Proof.Machine

variable {unpack : Word → List Byte × Bool}

/-- One read of the scan. -/
theorem scanString_succ (fuel : Nat) (a : Word) (s : State) :
    scanString unpack (fuel + 1) a s =
      if (unpack (s.memRead a).1).2 then
        scanString unpack fuel (a + 1#16) ((s.memRead a).2.consoleWrite (unpack (s.memRead a).1).1)
      else some ((s.memRead a).2.consoleWrite (unpack (s.memRead a).1).1) := rfl

/-- An end reached in `fuel` reads is reached the same way with more. -/
theorem scanString_mono {fuel : Nat} {a : Word} {s t : State} (h : scanString unpack fuel a s = some t) (more : Nat) :
    scanString unpack (fuel + more) a s = some t := by
  induction fuel generalizing a s with
  | zero => cases h
  | succ fuel ih =>
    rw [Nat.succ_add, scanString_succ]
    rw [scanString_succ] at h
    split at h
    · rename_i hc; rw [if_pos hc]; exact ih h
    · rename_i hc; rw [if_neg hc]; exact h

/-- The unbounded loop and its cut-off runs: it ends in `t` exactly where some number of reads is enough to end in `t`. -/
theorem scanLoop_eq_some {a : Word} {s t : State} :
    scanLoop unpack a s = some t ↔ ∃ fuel, scanString unpack fuel a s = some t := by
  constructor
  · refine scanLoop.partial_correctness unpack (fun a s t => ∃ fuel, scanString unpack fuel a s = some t) ?_ a s t
    intro loop ih a s t h
    dsimp only at h
    split at h
    · rename_i hc
      obtain ⟨fuel, hf⟩ := ih _ _ _ h
      exact ⟨fuel + 1, by rw [scanString_succ, if_pos hc, hf]⟩
    · rename_i hc
      exact ⟨1, by rw [scanString_succ, if_neg hc, h]⟩
  · rintro ⟨fuel, h⟩
    induction fuel generalizing a s with
    | zero => cases h
    | succ fuel ih =>
      rw [scanString_succ] at h
      rw [scanLoop]
      split at h
      · rename_i hc; rw [if_pos hc]; exact ih h
      · rename_i hc; rw [if_neg hc, h]

/-- The first try is only a shorter run of the same loop. -/
theorem scanToEnd_eq (a : Word) (s : State) : scanToEnd unpack a s = scanLoop unpack a s := by
  unfold scanToEnd
  split
  · rename_i t h; exact (scanLoop_eq_some.2 ⟨_, h⟩).symm
  · rfl

/-- What PUTS and PUTSP can do: end where the loop ends, or fault because no number of reads ends it. -/
theorem routineScan_cases (s : State) :
    (∃ t fuel, scanString unpack fuel (s.reg .r0) s = some t ∧ routineScan unpack s = .next t) ∨
    ((∀ fuel, scanString unpack fuel (s.reg .r0) s = none) ∧ routineScan unpack s = .fault .neverEnds) := by
  unfold routineScan
  rw [scanToEnd_eq]
  cases h : scanLoop unpack (s.reg .r0) s with
  | none =>
    refine .inr ⟨fun fuel => Option.eq_none_iff_forall_ne_some.2 fun t ht => ?_, rfl⟩
    rw [scanLoop_eq_some.2 ⟨fuel, ht⟩] at h
    cases h
  | some t => obtain ⟨fuel, hf⟩ := scanLoop_eq_some.1 h; exact .inl ⟨t, fuel, hf, rfl⟩

/-- A property that every read and every write of the output keeps holds at the scan's end. -/
theorem scanString_keeps {P : State → Prop} (hread : ∀ s a, P s → P (s.memRead a).2) (hwrite : ∀ s bs, P s → P (s.consoleWrite bs))
    {fuel : Nat} {a : Word} {s t : State} (h : scanString unpack fuel a s = some t) (hs : P s) : P t := by
  induction fuel generalizing a s with
  | zero => cases h
  | succ fuel ih =>
    rw [scanString_succ] at h
    split at h
    · exact ih h (hwrite _ _ (hread _ _ hs))
    · cases h; exact hwrite _ _ (hread _ _ hs)

/-- The scan writes no register, flag, PC, run state, error record, stop request or input. -/
theorem scanString_frame {fuel : Nat} {a : Word} {s t : State} (h : scanString unpack fuel a s = some t) :
    t.regs = s.regs ∧ t.pc = s.pc ∧ t.nzp = s.nzp ∧ t.run = s.run ∧ t.err = s.err ∧ t.stopReq = s.stopReq ∧ t.input = s.input :=
  scanString_keeps
    (P := fun u => u.regs = s.regs ∧ u.pc = s.pc ∧ u.nzp = s.nzp ∧ u.run = s.run ∧ u.err = s.err ∧ u.stopReq = s.stopReq ∧
      u.input = s.input)
    (fun u a hu => by simpa using hu) (fun u bs hu => by simpa using hu) h ⟨rfl, rfl, rfl, rfl, rfl, rfl, rfl⟩

/-- The scan leaves plain storage alone and keeps the canonical form. -/
theorem scanString_mem {fuel : Nat} {a : Word} {s t : State} (h : scanString unpack fuel a s = some t) (hm : s.mem.wf) :
    t.mem.wf ∧ ∀ b, Plain b → t.cell b = s.cell b :=
  scanString_keeps (P := fun u => u.mem.wf ∧ ∀ b, Plain b → u.cell b = s.cell b)
    (fun _ a hu => ⟨State.memRead_wf hu.1 a, fun b hb => (State.memRead_cell_plain hu.1 a hb).trans (hu.2 b hb)⟩)
    (fun _ _ hu => hu) h ⟨hm, fun _ _ => rfl⟩

/-- The scan only adds to the output. -/
theorem scanString_out {fuel : Nat} {a : Word} {s t : State} (h : scanString unpack fuel a s = some t) : s.out <+: t.out :=
  scanString_keeps (P := fun u => s.out <+: u.out) (fun u a hu => by simpa using hu)
    (fun u bs hu => hu.trans (List.prefix_append _ _)) h (List.prefix_refl _)

end Sys2Proof.Machine
end

