-- ==== Sys2Proof/Laws/Trap.lean ====
section
/-! SUPPORT. What the trap routines and TRAP can do, one lemma each (44_trap.md). -/

namespace Sys2Proof.Machine

/-- GETC's routine delivers a Word, or waits because the environment does not answer. -/
theorem routineGetc_cases (s : State) :
    (∃ c, s.nextInput = some c ∧ routineGetc s = .next (({ s with input := s.inputAfter } : State).setResult .r0 c)) ∨
    (s.nextInput = none ∧ routineGetc s = .fault (.waitsForInput s.out)) := by
  unfold routineGetc State.consoleRead
  cases s.nextInput with
  | none => exact .inr ⟨rfl, rfl⟩
  | some c => exact .inl ⟨c, rfl, rfl⟩

/-- IN's routine delivers and echoes a Word after its prompt, or waits because the environment does not answer. -/
theorem routineIn_cases (prompt : List Byte) (s : State) :
    (∃ c, s.nextInput = some c ∧ routineIn prompt s =
      .next (((({ s with input := s.inputAfter } : State).consoleWrite prompt).consoleWrite [lowByte c]).setResult .r0 c)) ∨
    (s.nextInput = none ∧ routineIn prompt s = .fault (.waitsForInput (s.out ++ prompt))) := by
  have hin : (s.consoleWrite prompt).nextInput = s.nextInput := rfl
  unfold routineIn State.consoleRead
  dsimp only
  rw [hin]
  cases s.nextInput with
  | none => exact .inr ⟨rfl, rfl⟩
  | some c => exact .inl ⟨c, rfl, rfl⟩

/-- TRAP with a code outside the table raises IllegalTrap (R220). -/
theorem execTrap_illegal (x : BitVec 4) {v : BitVec 8} (s : State) (h : v ∉ trapTable) :
    execTrap x v s = .next (s.trapEntry.raiseFatal .illegalTrap (encode (.trap x v))) := by
  have hne : ∀ k : Nat, k < 256 → v.toNat = k → v = BitVec.ofNat 8 k := by
    intro k hk hv
    rw [← hv, BitVec.ofNat_toNat, BitVec.setWidth_eq]
  unfold execTrap
  split <;> first | (rename_i hv; exact absurd (hne _ (by decide) hv ▸ h) (by decide)) | rfl

/-- TRAP runs the routine of its code, or raises IllegalTrap (R210, R220). -/
theorem execTrap_cases (x : BitVec 4) (v : BitVec 8) (s : State) :
    (v = 0x20#8 ∧ execTrap x v s = execGetc s) ∨ (v = 0x21#8 ∧ execTrap x v s = execOut s) ∨
    (v = 0x22#8 ∧ execTrap x v s = execPuts s) ∨ (v = 0x23#8 ∧ execTrap x v s = execIn s) ∨
    (v = 0x24#8 ∧ execTrap x v s = execPutsp s) ∨ (v = 0x25#8 ∧ execTrap x v s = execHalt s) ∨
    (v ∉ trapTable ∧ execTrap x v s = .next (s.trapEntry.raiseFatal .illegalTrap (encode (.trap x v)))) := by
  by_cases h : v ∈ trapTable
  · simp only [trapTable, List.mem_cons, List.not_mem_nil, or_false] at h
    rcases h with rfl | rfl | rfl | rfl | rfl | rfl
    · exact .inl ⟨rfl, rfl⟩
    · exact .inr (.inl ⟨rfl, rfl⟩)
    · exact .inr (.inr (.inl ⟨rfl, rfl⟩))
    · exact .inr (.inr (.inr (.inl ⟨rfl, rfl⟩)))
    · exact .inr (.inr (.inr (.inr (.inl ⟨rfl, rfl⟩))))
    · exact .inr (.inr (.inr (.inr (.inr (.inl ⟨rfl, rfl⟩)))))
  · exact .inr (.inr (.inr (.inr (.inr (.inr ⟨h, execTrap_illegal x s h⟩)))))

end Sys2Proof.Machine
end

