-- ==== Sys2Proof/Tests/Slice0.lean ====
section
/-! SUPPORT. The model's own tests: ill-formed terms, one written-out word per constructor, single steps with the results the spec states
(95_test_vectors.md and the examples of the rules), and a witness for the hypotheses of each statement. -/

namespace Sys2Proof.Tests

open Sys2Proof.Machine

/-! ### Ill-formed terms are refused (WellFormed.lean) -/

theorem test_jmp_r7_is_ill_formed : (Instr.jmp .r7).wellFormed = false := by decide
theorem test_trap_of_the_table_is_ill_formed : ∀ v ∈ trapTable, (Instr.trap 0 v).wellFormed = false := by decide
theorem test_others_are_well_formed : (Instr.jmp .r6).wellFormed = true ∧ (Instr.trap 0 0x26#8).wellFormed = true := by decide

/-! ### One word per constructor, written out from 30_encoding.md R93 to R99 -/

theorem test_decode_addReg : decode 0b0001001010000011#16 = .addReg .r1 .r2 .r3 := by decide
theorem test_decode_addReg_ignored_bits : decode 0b0001001010011011#16 = .addReg .r1 .r2 .r3 := by decide
theorem test_decode_addImm : decode 0b0001001001111111#16 = .addImm .r1 .r1 0b11111#5 := by decide
theorem test_decode_andReg : decode 0b0101010011000100#16 = .andReg .r2 .r3 .r4 := by decide
theorem test_decode_andImm : decode 0b0101101101101111#16 = .andImm .r5 .r5 0b01111#5 := by decide
theorem test_decode_not : decode 0b1001010011111111#16 = .not .r2 .r3 := by decide
theorem test_decode_not_ignored_bits : decode 0b1001001010000000#16 = .not .r1 .r2 := by decide
theorem test_decode_br : decode 0b0000101100000000#16 = .br true false true 0b100000000#9 := by decide
theorem test_decode_jmp : decode 0b1100000010000000#16 = .jmp .r2 := by decide
theorem test_decode_ret : decode 0b1100000111000000#16 = .ret := by decide
theorem test_decode_jsr : decode 0b0100110000000000#16 = .jsr 0b10000000000#11 := by decide
theorem test_decode_jsrr : decode 0b0100000100000000#16 = .jsrr .r4 := by decide
theorem test_decode_ld : decode 0b0010001111111111#16 = .ld .r1 0b111111111#9 := by decide
theorem test_decode_ldi : decode 0b1010001000000010#16 = .ldi .r1 2#9 := by decide
theorem test_decode_lea : decode 0b1110011011111111#16 = .lea .r3 0b011111111#9 := by decide
theorem test_decode_st : decode 0b0011010111111101#16 = .st .r2 0b111111101#9 := by decide
theorem test_decode_sti : decode 0b1011010000000100#16 = .sti .r2 4#9 := by decide
theorem test_decode_ldr : decode 0b0110001110100000#16 = .ldr .r1 .r6 0b100000#6 := by decide
theorem test_decode_str : decode 0b0111010110111111#16 = .str .r2 .r6 0b111111#6 := by decide
theorem test_decode_trap : decode 0b1111000000100110#16 = .trap 0 0x26#8 := by decide
theorem test_decode_getc : decode 0b1111000000100000#16 = .getc := by decide
theorem test_decode_out : decode 0b1111000000100001#16 = .out := by decide
theorem test_decode_puts : decode 0b1111000000100010#16 = .puts := by decide
theorem test_decode_inChar : decode 0b1111000000100011#16 = .inChar := by decide
theorem test_decode_putsp : decode 0b1111000000100100#16 = .putsp := by decide
theorem test_decode_halt : decode 0b1111000000100101#16 = .halt := by decide
theorem test_decode_halt_ignored_bits : decode 0b1111101000100101#16 = .halt := by decide
theorem test_decode_illegal8 : decode 0b1000000000000000#16 = .illegal8 0 := by decide
theorem test_decode_illegalD : decode 0b1101000100100011#16 = .illegalD 0x123#12 := by decide
theorem test_table_word : decodeTableWord 16 0xF025 = some .halt ∧ decodeTableWord 16 0x10000 = none := by decide

/-! ### Single steps -/

/-- Memory with the listed cells. -/
def cells : List (Word × Word) → Memory
  | [] => []
  | (a, v) :: rest => (cells rest).write a v

/-- A start state: `word` at 0x3000 and the PC there, the other listed cells, everything else as at reset. -/
def start (word : Word) (others : List (Word × Word) := []) : State :=
  { State.reset with pc := 0x3000#16, mem := (cells others).write 0x3000#16 word, keys := ⟨[], 0⟩, input := ⟨[], 0⟩ }

/-- The next state of a step has the property. -/
def stepsTo (s : State) (p : State → Bool) : Bool :=
  match step s with
  | .next t => p t
  | _ => false

/-- N, Z, P as bits. -/
def nzpBits (t : State) : Bool × Bool × Bool := (t.nzp.n, t.nzp.z, t.nzp.p)

/-- W1. -/
theorem test_addReg_wraps : stepsTo (((start 0x1283#16).setReg .r2 0x7FFF#16).setReg .r3 1#16)
    (fun t => t.reg .r1 == 0x8000#16 && nzpBits t == (true, false, false) && t.pc == 0x3001#16) = true := by decide
/-- V1.3: the destination is both sources. -/
theorem test_addReg_same : stepsTo ((start 0x1000#16).setReg .r0 0x4000#16)
    (fun t => t.reg .r0 == 0x8000#16 && nzpBits t == (true, false, false)) = true := by decide
/-- V1.6. -/
theorem test_addImm_minus_one : stepsTo (start 0x127F#16)
    (fun t => t.reg .r1 == 0xFFFF#16 && nzpBits t == (true, false, false)) = true := by decide
/-- W2. -/
theorem test_andReg_zero : stepsTo (((start 0x5283#16).setReg .r2 0xAAAA#16).setReg .r3 0x5555#16)
    (fun t => t.reg .r1 == 0#16 && nzpBits t == (false, true, false)) = true := by decide
/-- V1.10: imm5 is sign-extended before the AND. -/
theorem test_andImm_sign : stepsTo ((start 0x52BF#16).setReg .r2 0x8001#16)
    (fun t => t.reg .r1 == 0x8001#16 && nzpBits t == (true, false, false)) = true := by decide
/-- V1.15. -/
theorem test_not : stepsTo ((start 0x9280#16).setReg .r2 0x1234#16)
    (fun t => t.reg .r1 == 0xEDCB#16 && nzpBits t == (true, false, false)) = true := by decide
/-- V2.2: no flag is set at reset, so no branch is taken. -/
theorem test_br_not_taken_at_reset : stepsTo (start 0x0FFF#16) (fun t => t.pc == 0x3001#16) = true := by decide
/-- V2.5. -/
theorem test_br_backward : stepsTo { start 0x0B00#16 with nzp := ⟨true, false, false⟩ } (fun t => t.pc == 0x2F01#16) = true := by decide
/-- V2.8. -/
theorem test_jmp : stepsTo ((start 0xC080#16).setReg .r2 0x4000#16) (fun t => t.pc == 0x4000#16) = true := by decide
/-- V2.9. -/
theorem test_ret : stepsTo ((start 0xC1C0#16).setReg .r7 0x1234#16) (fun t => t.pc == 0x1234#16) = true := by decide
/-- V2.11. -/
theorem test_jsr_backward : stepsTo (start 0x4C00#16) (fun t => t.reg .r7 == 0x3001#16 && t.pc == 0x2C01#16) = true := by decide
/-- V2.13. -/
theorem test_jsrr : stepsTo ((start 0x40C0#16).setReg .r3 0x5000#16)
    (fun t => t.reg .r7 == 0x3001#16 && t.pc == 0x5000#16) = true := by decide
/-- V2.14: R7 is written before the base is read. -/
theorem test_jsrr_r7 : stepsTo ((start 0x41C0#16).setReg .r7 0x5000#16)
    (fun t => t.reg .r7 == 0x3001#16 && t.pc == 0x3001#16) = true := by decide
/-- V3.2: LD reads its own word. -/
theorem test_ld_itself : stepsTo (start 0x23FF#16)
    (fun t => t.reg .r1 == 0x23FF#16 && nzpBits t == (false, false, true)) = true := by decide
/-- W4, third row. -/
theorem test_ldi : stepsTo (start 0xA401#16 [(0x3002#16, 0x5000#16), (0x4000#16, 0x7ABC#16), (0x5000#16, 9#16)])
    (fun t => t.reg .r2 == 9#16 && nzpBits t == (false, false, true)) = true := by decide
/-- V6.8: the second read of LDI is the data read. -/
theorem test_ldi_data_register : stepsTo (start 0xA000#16 [(0x3001#16, 0xFE02#16), (0xFE00#16, 0x8000#16), (0xFE02#16, 0x78#16)])
    (fun t => t.reg .r0 == 0x78#16 && t.cell 0xFE00#16 == 0#16) = true := by decide
/-- V3.4: the address wraps. -/
theorem test_ldr_wraps : stepsTo ((start 0x671F#16 [(0x000F#16, 0x42#16)]).setReg .r4 0xFFF0#16)
    (fun t => t.reg .r3 == 0x42#16) = true := by decide
/-- V6.3: a new key overwrites an unread one. -/
theorem test_ldr_polls : stepsTo { ((start 0x6300#16 [(0xFE00#16, 0x8000#16), (0xFE02#16, 0x61#16)]).setReg .r4 0xFE00#16) with keys := ⟨[some 0x62#16], 0⟩ }
    (fun t => t.reg .r1 == 0x8000#16 && t.cell 0xFE02#16 == 0x62#16 && t.keys == ⟨[], 0⟩) = true := by decide
/-- V3.6: LEA at 0xFFFF. -/
theorem test_lea_wraps : stepsTo { start 0x0000#16 [(0xFFFF#16, 0xEA00#16)] with pc := 0xFFFF#16 }
    (fun t => t.reg .r5 == 0#16 && nzpBits t == (false, true, false) && t.pc == 0#16) = true := by decide
/-- V3.7. -/
theorem test_st : stepsTo ((start 0x3205#16).setReg .r1 0xCAFE#16)
    (fun t => t.cell 0x3006#16 == 0xCAFE#16 && nzpBits t == (false, false, false)) = true := by decide
/-- V3.8. -/
theorem test_sti : stepsTo ((start 0xB402#16 [(0x3003#16, 0x6000#16)]).setReg .r2 0x1111#16)
    (fun t => t.cell 0x6000#16 == 0x1111#16 && t.cell 0x3003#16 == 0x6000#16) = true := by decide
/-- V3.9: the address wraps. -/
theorem test_str_wraps : stepsTo ((start 0x773F#16).setReg .r3 0x2222#16) (fun t => t.cell 0xFFFF#16 == 0x2222#16) = true := by decide
/-- V6.7: a plain write of the data register. -/
theorem test_str_device : stepsTo (((start 0x7300#16 [(0xFE00#16, 0x8000#16)]).setReg .r1 0x1234#16).setReg .r4 0xFE02#16)
    (fun t => t.cell 0xFE02#16 == 0x1234#16 && t.cell 0xFE00#16 == 0x8000#16) = true := by decide
/-- V4.3. -/
theorem test_getc : stepsTo { start 0xF020#16 with input := ⟨[some 0x8000#16], 0⟩ }
    (fun t => t.reg .r0 == 0x8000#16 && nzpBits t == (true, false, false) && t.reg .r7 == 0x3001#16 && t.out == []) = true := by decide
/-- R127: a read that the environment does not answer has no next state. -/
theorem test_getc_waits : (match step { start 0xF020#16 with input := ⟨[none], 0⟩ } with
    | .fault (.waitsForInput o) => o == []
    | _ => false) = true := by decide
/-- V4.5. -/
theorem test_out : stepsTo ((start 0xF021#16).setReg .r0 0x1241#16) (fun t => t.out == [0x41#8] && t.reg .r7 == 0x3001#16) = true := by decide
/-- V4.6. -/
theorem test_puts : stepsTo ((start 0xF022#16 [(0x4000#16, 0x48#16), (0x4001#16, 0x69#16)]).setReg .r0 0x4000#16)
    (fun t => t.out == [0x48#8, 0x69#8] && t.reg .r0 == 0x4000#16) = true := by decide
/-- V4.16: the scan polls. -/
theorem test_puts_polls : stepsTo { ((start 0xF022#16).setReg .r0 0xFE00#16) with keys := ⟨[some 0#16], 0⟩ }
    (fun t => t.out == [0#8] && t.cell 0xFE00#16 == 0x8000#16) = true := by decide
/-- R66, R221: with the status register clear, a poll that finds a key keeps the scan going and one that finds none ends it. -/
theorem test_scan_polls :
    (scanString unpackPuts 1 0xFE00#16 { start 0#16 with keys := ⟨[some 0x62#16], 0⟩ }).isNone = true ∧
    (scanString unpackPuts 1 0xFE00#16 { start 0#16 with keys := ⟨[none], 0⟩ }).isSome = true := by decide
/-- V4.9, with its prompt. -/
theorem test_in : (match routineIn [0x3E#8, 0x20#8] { start 0xF023#16 with input := ⟨[some 0x62#16], 0⟩ } with
    | .next t => t.out == [0x3E#8, 0x20#8, 0x62#8] && t.reg .r0 == 0x62#16 && nzpBits t == (false, false, true)
    | _ => false) = true := by decide
/-- V4.10: ends at the zero high byte. -/
theorem test_putsp : stepsTo ((start 0xF024#16 [(0x4000#16, 0x6548#16), (0x4001#16, 0x6C6C#16), (0x4002#16, 0x6F#16)]).setReg .r0 0x4000#16)
    (fun t => t.out == [0x48#8, 0x65#8, 0x6C#8, 0x6C#8, 0x6F#8]) = true := by decide
/-- V4.13: a zero low byte ends the string at once. -/
theorem test_putsp_low_zero : stepsTo ((start 0xF024#16 [(0x4000#16, 0x4100#16), (0x4001#16, 0x4242#16)]).setReg .r0 0x4000#16)
    (fun t => t.out == []) = true := by decide
/-- V4.14. -/
theorem test_halt : stepsTo (start 0xF025#16) (fun t => t.run == .halted && t.reg .r7 == 0x3001#16 && t.pc == 0x3001#16) = true := by decide
/-- V5.4. -/
theorem test_illegal_trap : stepsTo (start 0xF026#16)
    (fun t => t.run == .error && t.err == some ⟨.illegalTrap, 0x3000#16, 0xF026#16⟩ && t.reg .r7 == 0x3001#16) = true := by decide
/-- V5.1. -/
theorem test_illegal8 : stepsTo (start 0x8000#16)
    (fun t => t.run == .error && t.err == some ⟨.illegalOpcode, 0x3000#16, 0x8000#16⟩ && t.pc == 0x3001#16 && t.reg .r7 == 0#16) = true := by
  decide
/-- V5.2. -/
theorem test_illegalD : stepsTo (start 0xD123#16) (fun t => t.err == some ⟨.illegalOpcode, 0x3000#16, 0xD123#16⟩) = true := by decide
/-- V5.7: a stop request, nothing fetched. -/
theorem test_stop : stepsTo (start 0x1261#16).requestStop (fun t => t.run == .stopped && t.pc == 0x3000#16 && t.reg .r1 == 0#16) = true := by
  decide
/-- V5.8: a fetch from the status register polls. -/
theorem test_fetch_polls : stepsTo { start 0#16 with pc := 0xFE00#16, keys := ⟨[some 0x41#16], 0⟩ }
    (fun t => t.err == some ⟨.illegalOpcode, 0xFE00#16, 0x8000#16⟩ && t.cell 0xFE02#16 == 0x41#16 && t.pc == 0xFE01#16) = true := by decide
/-- W7: the two-word object file. -/
theorem test_load_object :
    (State.loadObject [0x30#8, 0x00#8, 0x12#8, 0x34#8]).map (fun s => (s.pc, s.cell 0x3000#16, s.cell 0x3001#16)) =
      some (0x3000#16, 0x1234#16, 0#16) := by decide

/-! ### The hypotheses of the statements can be met -/

theorem witness_wellFormed : (Instr.trap 0xA#4 0x99#8).wellFormed = true ∧ (Instr.jmp .r0).wellFormed = true := by decide
theorem witness_running_plain : State.reset.run = .running ∧ State.reset.stopReq = false ∧ State.reset.mem.wf = true ∧ Plain State.reset.pc := by
  decide
theorem witness_running_device : (start 0#16).run = .running ∧ { start 0#16 with pc := 0xFE02#16 }.pc = kbdr := by decide
theorem witness_stop_requested : State.reset.requestStop.run = .running ∧ State.reset.requestStop.stopReq = true := by decide
theorem witness_terminal : State.reset.haltRun.run = .halted ∧ State.reset.stopRun.run = .stopped ∧
    (State.reset.raiseFatal .illegalOpcode 0#16).run = .error := by decide
theorem witness_ended_run : State.reset.haltRun.run ≠ .running ∧ Reaches State.reset.haltRun State.reset.haltRun.requestStop :=
  ⟨by decide, .stop (.refl _)⟩
theorem witness_always_completes : mayNotEnd (.trap 0#4 0x25#8) = false ∧ mayNotEnd (.ldi .r0 0#9) = false := by decide
theorem witness_defines_flags : definesFlags (.lea .r3 0#9) = true ∧ ∃ t, exec (.lea .r3 0#9) State.reset = .next t := ⟨rfl, _, rfl⟩
theorem witness_keeps_flags : definesFlags (.st .r3 0#9) = false ∧ ∃ t, exec (.st .r3 0#9) State.reset = .next t := ⟨rfl, _, rfl⟩
theorem witness_transfers : transfers .out = false ∧ (∃ t, exec .out State.reset = .next t) ∧ (∃ t, exec (.jsrr .r7) State.reset = .next t) ∧
    (∃ t, exec (.br true true true 0x100#9) State.reset = .next t) ∧ (∃ t, exec (.jmp .r7) State.reset = .next t) ∧
    (∃ t, exec .ret State.reset = .next t) ∧ ∃ t, exec (.jsr 0x400#11) State.reset = .next t :=
  ⟨rfl, ⟨_, rfl⟩, ⟨_, rfl⟩, ⟨_, rfl⟩, ⟨_, rfl⟩, ⟨_, rfl⟩, _, rfl⟩
theorem witness_trap_writes_r7 : isTrap (.trap 0#4 0#8) = true ∧ ∃ t, exec (.trap 0#4 0#8) State.reset = .next t := ⟨rfl, _, rfl⟩
theorem witness_plain : Plain 0xFE01#16 ∧ Plain 0xFDFF#16 ∧ Plain 0xFE03#16 ∧ Plain 0xFFFF#16 := by decide
theorem witness_polls : (start 0#16).mem.wf = true ∧ { start 0#16 with keys := ⟨[some 0x61#16], 0⟩ }.nextKey = some 0x61#16 ∧
    { start 0#16 with keys := ⟨[none], 0⟩ }.nextKey = none ∧ { start 0#16 with keys := ⟨[none], 0⟩ }.keys.known = none :: [] ∧
    (start 0#16).keys.known = [] := by decide
theorem witness_key_press : ∀ s, s = { start 0#16 with keys := ⟨[some 0x61#16, none, none], 0⟩ } →
    s.mem.wf = true ∧ s.nextKey = some 0x61#16 ∧ keyAtPoll s (1 + 1) = none := by
  rintro s rfl; decide
theorem witness_cell_not_stored : (start 0x35FD#16).mem.wf = true ∧ Plain 0x3000#16 ∧
    storeAddress (.st .r2 0x1FD#9) (start 0x35FD#16) ≠ some 0x3000#16 ∧ ∃ t, exec (.st .r2 0x1FD#9) (start 0x35FD#16) = .next t :=
  ⟨by decide, by decide, by decide, _, rfl⟩
theorem witness_availability_set : ∀ s, s = { (start 0#16).setReg .r4 0xFE00#16 with keys := ⟨[some 0x61#16], 0⟩ } →
    s.mem.wf = true ∧ storeAddress (.ldr .r1 .r4 0#6) s ≠ some 0xFE00#16 ∧ (s.cell 0xFE00#16).getLsbD 15 = false ∧
    ∃ t, exec (.ldr .r1 .r4 0#6) s = .next t ∧ (t.cell 0xFE00#16).getLsbD 15 = true := by
  rintro s rfl; exact ⟨by decide, by decide, by decide, _, rfl, by decide⟩
theorem witness_input : { start 0xF020#16 with input := ⟨[some 0x61#16], 0⟩ }.nextInput = some 0x61#16 ∧
    { start 0xF020#16 with input := ⟨[none], 0⟩ }.nextInput = none := by decide
theorem witness_string : ∀ s, s = (start 0xF022#16 [(0x4000#16, 0x48#16), (0x4001#16, 0x69#16)]).setReg .r0 0x4000#16 →
    (∀ i ≤ 2, Plain (s.reg .r0 + BitVec.ofNat 16 i)) ∧ (∀ i < 2, s.cell (s.reg .r0 + BitVec.ofNat 16 i) ≠ 0#16) ∧
    s.cell (s.reg .r0 + BitVec.ofNat 16 2) = 0#16 := by
  rintro s rfl; decide
theorem witness_packed_string : ∀ s, s = (start 0xF024#16 [(0x4000#16, 0x6548#16), (0x4001#16, 0x6C#16)]).setReg .r0 0x4000#16 →
    (∀ i ≤ 1, Plain (s.reg .r0 + BitVec.ofNat 16 i)) ∧
    (∀ i < 1, (s.cell (s.reg .r0 + BitVec.ofNat 16 i)).extractLsb' 0 8 ≠ 0#8 ∧
      (s.cell (s.reg .r0 + BitVec.ofNat 16 i)).extractLsb' 8 8 ≠ 0#8) ∧
    (s.cell (s.reg .r0 + BitVec.ofNat 16 1)).extractLsb' 8 8 = 0#8 := by
  rintro s rfl; decide
theorem witness_scan_ends : ∃ t, exec .puts (start 0xF022#16) = .next t ∧ ∃ u, exec .putsp (start 0xF024#16) = .next u :=
  ⟨_, rfl, _, rfl⟩
theorem witness_trap_completes : Plain ((start 0#16).reg .r0) ∧ (start 0#16).cell ((start 0#16).reg .r0) = 0#16 := by
  decide
theorem witness_trap_input : { start 0xF020#16 with input := ⟨[some 0#16], 0⟩ }.nextInput ≠ none := by decide
theorem witness_illegal_codes : 0x1F#8 ∉ trapTable ∧ 0x26#8 ∉ trapTable := by decide
theorem witness_inv : State.reset.mem.wf = true ∧ (State.reset.run = .error ↔ State.reset.err.isSome = true) ∧
    State.reset.nzp = ⟨false, false, false⟩ := by decide
theorem witness_step_from_inv : ∃ t, step State.reset = .next t := ⟨_, rfl⟩
theorem witness_launch : ∃ s, State.launch 0xFFFF#16 [0xF025#16] = some s ∧ Reaches s s.requestStop :=
  ⟨_, rfl, .stop (.refl _)⟩
theorem witness_launch_bounds : (0xFFFF#16 : Word).toNat + [0xF025#16].length ≤ 65536 ∧
    65536 < (0xFFFF#16 : Word).toNat + [0xF025#16, 0#16].length := by decide
theorem witness_odd_file : ([0x30#8] : List Byte).length % 2 = 1 := by decide
theorem witness_output_read : ∃ t, exec .out (start 0xF021#16) = .next t ∧ isTrap (.jmp .r0) = false ∧
    ∃ u, exec (.jmp .r0) (start 0xF021#16) = .next u := ⟨_, rfl, rfl, _, rfl⟩

end Sys2Proof.Tests
end

section
/-! The flags of a result agree with its signed reading (00_scope.md R11, R17). -/

namespace Sys2Proof.Machine

/-- Bit 15 is the sign of a Word's two's-complement reading (R11). -/
theorem Word.getLsbD_15_eq_toInt_neg (v : Word) : v.getLsbD 15 = decide (v.toInt < 0) := by
  rw [← BitVec.msb_eq_toInt, BitVec.msb_eq_getLsbD_last]

theorem Word.toInt_eq_zero_iff (v : Word) : v.toInt = 0 ↔ v = 0#16 := by
  rw [← BitVec.toInt_inj, BitVec.toInt_zero]

theorem signedFlags_of_bit15 {v : Word} (hneg : v.getLsbD 15 = true) : signedFlags v = ⟨true, false, false⟩ := by
  have hlt : v.toInt < 0 := by rwa [Word.getLsbD_15_eq_toInt_neg, decide_eq_true_iff] at hneg
  have hne : v.toInt ≠ 0 := by omega
  have hle : ¬ 0 < v.toInt := by omega
  simp [signedFlags, hlt, hne, hle]

theorem signedFlags_zero : signedFlags 0#16 = ⟨false, true, false⟩ := by decide

theorem signedFlags_of_positive {v : Word} (hpos : v.getLsbD 15 = false) (hv : v ≠ 0#16) :
    signedFlags v = ⟨false, false, true⟩ := by
  have hge : ¬ v.toInt < 0 := by rwa [Word.getLsbD_15_eq_toInt_neg, decide_eq_false_iff_not] at hpos
  have hne : v.toInt ≠ 0 := mt (Word.toInt_eq_zero_iff v).mp hv
  have hlt : 0 < v.toInt := by omega
  simp [signedFlags, hge, hne, hlt]

/-- The flags `setcc` writes, decided bit by bit, are those of the signed reading. -/
theorem flagsOf_eq_signedFlags (v : Word) : flagsOf v = signedFlags v := by
  unfold flagsOf
  split_ifs with hneg hzero
  · exact (signedFlags_of_bit15 hneg).symm
  · rw [hzero, signedFlags_zero]
  · exact (signedFlags_of_positive (Bool.eq_false_iff.mpr hneg) hzero).symm

theorem flagsOf_exactlyOne (v : Word) : (flagsOf v).ExactlyOne := by
  unfold flagsOf
  split_ifs
  · exact .inl rfl
  · exact .inr (.inl rfl)
  · exact .inr (.inr rfl)

theorem signedFlags_exactlyOne (v : Word) : (signedFlags v).ExactlyOne :=
  flagsOf_eq_signedFlags v ▸ flagsOf_exactlyOne v

theorem State.setcc_eq_signedFlags (s : State) (v : Word) : s.setcc v = { s with nzp := signedFlags v } := by
  rw [State.setcc, flagsOf_eq_signedFlags]

/-- Settles O12: the bitwise test of `setcc` is the sign of the two's-complement reading, and its three cases exclude
each other. -/
theorem flagsFollowTheSignedReading : Obligations.FlagsFollowTheSignedReading := by
  unfold Obligations.FlagsFollowTheSignedReading
  intro s v
  exact ⟨s.setcc_eq_signedFlags v, signedFlags_exactlyOne v, signedFlags_of_bit15,
    fun hv => hv ▸ signedFlags_zero, signedFlags_of_positive⟩

end Sys2Proof.Machine
end

section
/-! Which instructions write the flags, and from which register (10_state.md R40, R41). -/

namespace Sys2Proof.Machine

/-! ### A written result -/

/-- The flags a result leaves are those of the register it was written to. -/
theorem State.setResult_nzp_eq_signedFlags (s : State) (r : Reg) (v : Word) :
    (s.setResult r v).nzp = signedFlags ((s.setResult r v).reg r) := by
  rw [State.setResult_nzp, flagsOf_eq_signedFlags, State.reg_setResult, if_pos rfl]

/-- GETC ends by writing its result to R0 (44_trap.md R214). -/
theorem execGetc_next {s t : State} (h : execGetc s = .next t) : ∃ (u : State) (v : Word), t = u.setResult .r0 v := by
  obtain ⟨c, -, hc⟩ | ⟨-, hwait⟩ := routineGetc_cases s.trapEntry
  · exact ⟨_, c, (Host.Outcome.next.inj (hc.symm.trans h)).symm⟩
  · cases hwait.symm.trans h

/-- IN ends by writing its result to R0 (44_trap.md R217). -/
theorem execIn_next {s t : State} (h : execIn s = .next t) : ∃ (u : State) (v : Word), t = u.setResult .r0 v := by
  obtain ⟨c, -, hc⟩ | ⟨-, hwait⟩ := routineIn_cases Config.inPrompt s.trapEntry
  · exact ⟨_, c, (Host.Outcome.next.inj (hc.symm.trans h)).symm⟩
  · cases hwait.symm.trans h

/-- An instruction that defines flags ends by writing a result to a register it may write, which is R0 for a TRAP. -/
theorem exec_next_of_definesFlags {i : Instr} {s t : State} (hdef : definesFlags i = true) (h : exec i s = .next t) :
    ∃ r ∈ writes i, (isTrap i = true → r = .r0) ∧ ∃ (u : State) (v : Word), t = u.setResult r v := by
  cases i with
  | addReg dr | addImm dr | andReg dr | andImm dr | not dr | ld dr | ldi dr | lea dr | ldr dr =>
    exact ⟨dr, List.mem_singleton_self dr, nofun, _, _, (Host.Outcome.next.inj h).symm⟩
  | getc => exact ⟨.r0, .tail _ (.head _), fun _ => rfl, execGetc_next h⟩
  | inChar => exact ⟨.r0, .tail _ (.head _), fun _ => rfl, execIn_next h⟩
  | trap x vect =>
    obtain rfl | rfl := of_decide_eq_true hdef
    · exact ⟨.r0, .tail _ (.head _), fun _ => rfl, execGetc_next h⟩
    · exact ⟨.r0, .tail _ (.head _), fun _ => rfl, execIn_next h⟩
  | br | jmp | ret | jsr | jsrr | st | sti | str | out | puts | putsp | halt | illegal8 | illegalD => cases hdef

/-! ### Flags left alone -/

/-- PUTS and PUTSP keep the flags, whatever their scan reads (44_trap.md R222). -/
theorem routineScan_nzp {unpack : Word → List Byte × Bool} {s t : State} (h : routineScan unpack s = .next t) :
    t.nzp = s.nzp := by
  obtain ⟨u, fuel, hscan, hu⟩ | ⟨-, hends⟩ := routineScan_cases (unpack := unpack) s
  · obtain rfl := Host.Outcome.next.inj (hu.symm.trans h)
    obtain ⟨-, -, hnzp, -⟩ := scanString_frame hscan
    exact hnzp
  · cases hends.symm.trans h

theorem execPuts_nzp {s t : State} (h : execPuts s = .next t) : t.nzp = s.nzp :=
  (routineScan_nzp h).trans s.trapEntry_nzp

theorem execPutsp_nzp {s t : State} (h : execPutsp s = .next t) : t.nzp = s.nzp :=
  (routineScan_nzp h).trans s.trapEntry_nzp

/-- A TRAP with a code other than GETC's and IN's keeps the flags, one outside the table included (R220). -/
theorem execTrap_nzp {x : BitVec 4} {vect : BitVec 8} {s t : State} (hcode : ¬ (vect = 0x20#8 ∨ vect = 0x23#8))
    (h : execTrap x vect s = .next t) : t.nzp = s.nzp := by
  obtain ⟨rfl, -⟩ | ⟨-, hout⟩ | ⟨-, hputs⟩ | ⟨rfl, -⟩ | ⟨-, hputsp⟩ | ⟨-, hhalt⟩ | ⟨-, hillegal⟩ := execTrap_cases x vect s
  · exact absurd (.inl rfl) hcode
  · exact Host.Outcome.next.inj (hout.symm.trans h) ▸ rfl
  · exact execPuts_nzp (hputs.symm.trans h)
  · exact absurd (.inr rfl) hcode
  · exact execPutsp_nzp (hputsp.symm.trans h)
  · exact Host.Outcome.next.inj (hhalt.symm.trans h) ▸ rfl
  · exact Host.Outcome.next.inj (hillegal.symm.trans h) ▸ rfl

theorem exec_nzp_of_not_definesFlags {i : Instr} {s t : State} (hdef : definesFlags i = false)
    (h : exec i s = .next t) : t.nzp = s.nzp := by
  cases i with
  | br n z p off9 =>
    rw [← Host.Outcome.next.inj h]
    split <;> rfl
  | jmp | ret | jsr | jsrr | st | str | out | halt | illegal8 | illegalD => exact Host.Outcome.next.inj h ▸ rfl
  | sti sr off9 => rw [← Host.Outcome.next.inj h, State.memWrite_nzp, indirect_eq, State.memRead_nzp]
  | puts => exact execPuts_nzp h
  | putsp => exact execPutsp_nzp h
  | trap x vect => exact execTrap_nzp (of_decide_eq_false hdef) h
  | addReg | addImm | andReg | andImm | not | ld | ldi | lea | ldr | getc | inChar => cases hdef

/-! ### The statements -/

/-- Settles O19: a defining instruction ends by writing a result to its register, and the others are gone through one
by one. -/
theorem otherInstructionsKeepTheFlags : Obligations.OtherInstructionsKeepTheFlags := by
  unfold Obligations.OtherInstructionsKeepTheFlags
  refine fun i s t h => ⟨fun hdef => exec_nzp_of_not_definesFlags hdef h, fun hdef => ?_⟩
  obtain ⟨r, hr, htrap, u, v, rfl⟩ := exec_next_of_definesFlags hdef h
  exact ⟨r, hr, htrap, u.setResult_nzp_eq_signedFlags r v⟩

/-- Settles O18: a defining instruction ends by writing a result, and the flags of a Word exclude each other. -/
theorem definingInstructionsSetExactlyOneFlag : Obligations.DefiningInstructionsSetExactlyOneFlag := by
  unfold Obligations.DefiningInstructionsSetExactlyOneFlag
  intro i s t hdef h
  obtain ⟨r, -, -, u, v, rfl⟩ := exec_next_of_definesFlags hdef h
  exact flagsOf_exactlyOne v

end Sys2Proof.Machine
end

section
/-! Reads of plain storage (20_memory.md R64). -/

namespace Sys2Proof.Machine

/-- Settles O27: an address that is neither device cell is plain storage, which `memRead` reads with no side effect. -/
theorem plainReadChangesNothing : Obligations.PlainReadChangesNothing := by
  unfold Obligations.PlainReadChangesNothing
  exact fun s _ ha => s.memRead_plain ha

end Sys2Proof.Machine
end

section
/-! A run that has ended has no step (40_fetch_cycle.md R126). -/

namespace Sys2Proof.Machine

/-- Outside RUNNING neither the stop request nor the memory is looked at. -/
theorem step_of_run_ne_running {s : State} (h : s.run ≠ .running) : step s = .fault (.runEnded s.run) :=
  if_neg h

theorem RunState.ne_running_of_terminal {r : RunState} (h : r = .halted ∨ r = .error ∨ r = .stopped) :
    r ≠ .running := by
  obtain rfl | rfl | rfl := h <;> decide

/-- Settles O8: none of the three terminal states is RUNNING, the only state in which `step` does anything. -/
theorem terminalStateHasNoStep : Obligations.TerminalStateHasNoStep := by
  unfold Obligations.TerminalStateHasNoStep
  exact fun _ h => step_of_run_ne_running (RunState.ne_running_of_terminal h)

end Sys2Proof.Machine
end

section
/-! The words of the operate formats decode to their instruction (30_encoding.md R91, R93), whatever the don't-care bits
are (R103). -/

namespace Sys2Proof

theorem fieldDR_append (op : BitVec 4) (dr : Reg) (rest : BitVec 9) :
    fieldDR (op ++ (bitsOfReg dr ++ rest)) = dr := by
  rw [fieldDR, extract_append_low op (bitsOfReg dr ++ rest) 9 3 (by decide),
    extract_append_high (bitsOfReg dr) rest 9 3 (by decide), extract_whole, regOfBits_bitsOfReg]

theorem fieldBase_append (op : BitVec 4) (d : BitVec 3) (base : Reg) (low : BitVec 6) :
    fieldBase (op ++ (d ++ (bitsOfReg base ++ low))) = base := by
  rw [fieldBase, extract_append_low op (d ++ (bitsOfReg base ++ low)) 6 3 (by decide),
    extract_append_low d (bitsOfReg base ++ low) 6 3 (by decide),
    extract_append_high (bitsOfReg base) low 6 3 (by decide), extract_whole, regOfBits_bitsOfReg]

/-- A field that lies in bits 5:0, below both register fields. -/
theorem extract_low6 (op : BitVec 4) (d b : BitVec 3) (low : BitVec 6) (start len : Nat) (h : start + len ≤ 6) :
    (op ++ (d ++ (b ++ low)) : Word).extractLsb' start len = low.extractLsb' start len := by
  rw [extract_append_low op (d ++ (b ++ low)) start len (by omega), extract_append_low d (b ++ low) start len (by omega),
    extract_append_low b low start len h]

theorem fieldSR2_append (op : BitVec 4) (d b : BitVec 3) (form : BitVec 1) (x : BitVec 2) (sr2 : Reg) :
    fieldSR2 (op ++ (d ++ (b ++ (form ++ (x ++ bitsOfReg sr2))))) = sr2 := by
  rw [fieldSR2, extract_low6 op d b (form ++ (x ++ bitsOfReg sr2)) 0 3 (by decide),
    extract_append_low form (x ++ bitsOfReg sr2) 0 3 (by decide), extract_append_low x (bitsOfReg sr2) 0 3 (by decide),
    extract_whole, regOfBits_bitsOfReg]

theorem fieldImm5_append (op : BitVec 4) (d b : BitVec 3) (form : BitVec 1) (imm5 : BitVec 5) :
    fieldImm5 (op ++ (d ++ (b ++ (form ++ imm5)))) = imm5 := by
  rw [fieldImm5, extract_low6 op d b (form ++ imm5) 0 5 (by decide), extract_append_low form imm5 0 5 (by decide),
    extract_whole]

/-- Bit 5 tells the immediate form from the register form. -/
theorem bit5_append (op : BitVec 4) (d b : BitVec 3) (form : BitVec 1) (y : BitVec 5) :
    (op ++ (d ++ (b ++ (form ++ y))) : Word).getLsbD 5 = form.getLsbD 0 := by
  rw [bit_append_low op (d ++ (b ++ (form ++ y))) 5 (by decide), bit_append_low d (b ++ (form ++ y)) 5 (by decide),
    bit_append_low b (form ++ y) 5 (by decide), bit_append_high form y 5 (by decide)]

theorem decode_of_opcode_add {w : Word} (hop : w.extractLsb' 12 4 = 0x1#4) :
    decode w = if w.getLsbD 5 then .addImm (fieldDR w) (fieldBase w) (fieldImm5 w)
      else .addReg (fieldDR w) (fieldBase w) (fieldSR2 w) := by
  rw [decode, hop]; rfl

theorem decode_of_opcode_and {w : Word} (hop : w.extractLsb' 12 4 = 0x5#4) :
    decode w = if w.getLsbD 5 then .andImm (fieldDR w) (fieldBase w) (fieldImm5 w)
      else .andReg (fieldDR w) (fieldBase w) (fieldSR2 w) := by
  rw [decode, hop]; rfl

theorem decode_of_opcode_not {w : Word} (hop : w.extractLsb' 12 4 = 0x9#4) :
    decode w = .not (fieldDR w) (fieldBase w) := by
  rw [decode, hop]; rfl

theorem decode_addReg_word (dr sr1 sr2 : Reg) (x : BitVec 2) :
    decode (0x1#4 ++ (bitsOfReg dr ++ (bitsOfReg sr1 ++ (0#1 ++ (x ++ bitsOfReg sr2))))) = .addReg dr sr1 sr2 := by
  rw [decode_of_opcode_add (top_append _ _), bit5_append, fieldDR_append, fieldBase_append, fieldSR2_append]
  rfl

theorem decode_addImm_word (dr sr1 : Reg) (imm5 : BitVec 5) :
    decode (0x1#4 ++ (bitsOfReg dr ++ (bitsOfReg sr1 ++ (1#1 ++ imm5)))) = .addImm dr sr1 imm5 := by
  rw [decode_of_opcode_add (top_append _ _), bit5_append, fieldDR_append, fieldBase_append, fieldImm5_append]
  rfl

theorem decode_andReg_word (dr sr1 sr2 : Reg) (x : BitVec 2) :
    decode (0x5#4 ++ (bitsOfReg dr ++ (bitsOfReg sr1 ++ (0#1 ++ (x ++ bitsOfReg sr2))))) = .andReg dr sr1 sr2 := by
  rw [decode_of_opcode_and (top_append _ _), bit5_append, fieldDR_append, fieldBase_append, fieldSR2_append]
  rfl

theorem decode_andImm_word (dr sr1 : Reg) (imm5 : BitVec 5) :
    decode (0x5#4 ++ (bitsOfReg dr ++ (bitsOfReg sr1 ++ (1#1 ++ imm5)))) = .andImm dr sr1 imm5 := by
  rw [decode_of_opcode_and (top_append _ _), bit5_append, fieldDR_append, fieldBase_append, fieldImm5_append]
  rfl

theorem decode_not_word (dr sr : Reg) (x : BitVec 6) :
    decode (0x9#4 ++ (bitsOfReg dr ++ (bitsOfReg sr ++ x))) = .not dr sr := by
  rw [decode_of_opcode_not (top_append _ _), fieldDR_append, fieldBase_append]

end Sys2Proof
end

section
/-! ADD, AND and NOT (41_operate.md): each reads its operands, writes one result and sets the flags from it. -/

namespace Sys2Proof.Machine

/-! ### The effect of a result -/

/-- Sign extension of the field keeps its signed reading (00_scope.md R12). -/
theorem sext_eq_displacement {k : Nat} (f : BitVec k) : sext f = displacement f := rfl

theorem State.setResult_sameRegsBut (s : State) (dr : Reg) (v : Word) : SameRegsBut [dr] s (s.setResult dr v) :=
  fun r hr => (s.reg_setResult dr r v).trans (if_neg (List.ne_of_not_mem_cons hr))

theorem State.setResult_resultIn (s : State) (dr : Reg) (v : Word) : ResultIn dr v s (s.setResult dr v) :=
  ⟨(s.reg_setResult dr dr v).trans (if_pos rfl), flagsOf_eq_signedFlags v, s.setResult_sameRegsBut dr v,
    s.setResult_pc dr v, ⟨rfl, rfl, rfl⟩, ⟨rfl, rfl⟩⟩

theorem State.setResult_sameMemory (s : State) (dr : Reg) (v : Word) : SameMemory s (s.setResult dr v) :=
  ⟨s.setResult_cell dr v, s.setResult_keys dr v⟩

/-- An instruction that only writes a result completes with that result, its flags, and nothing else changed. -/
theorem exists_next_of_exec_eq_setResult {i : Instr} {s : State} {dr : Reg} {v : Word}
    (h : exec i s = .next (s.setResult dr v)) : ∃ t, exec i s = .next t ∧ ResultIn dr v s t ∧ SameMemory s t :=
  ⟨s.setResult dr v, h, s.setResult_resultIn dr v, s.setResult_sameMemory dr v⟩

/-! ### What each operate instruction writes (R141 to R145) -/

theorem exec_addReg (dr sr1 sr2 : Reg) (s : State) :
    exec (.addReg dr sr1 sr2) s = .next (s.setResult dr (s.reg sr1 + s.reg sr2)) := rfl

theorem exec_addImm (dr sr1 : Reg) (imm5 : BitVec 5) (s : State) :
    exec (.addImm dr sr1 imm5) s = .next (s.setResult dr (s.reg sr1 + displacement imm5)) := by
  rw [← sext_eq_displacement]; rfl

theorem exec_andReg (dr sr1 sr2 : Reg) (s : State) :
    exec (.andReg dr sr1 sr2) s = .next (s.setResult dr (s.reg sr1 &&& s.reg sr2)) := rfl

theorem exec_andImm (dr sr1 : Reg) (imm5 : BitVec 5) (s : State) :
    exec (.andImm dr sr1 imm5) s = .next (s.setResult dr (s.reg sr1 &&& displacement imm5)) := by
  rw [← sext_eq_displacement]; rfl

theorem exec_not (dr sr : Reg) (s : State) : exec (.not dr sr) s = .next (s.setResult dr (~~~(s.reg sr))) := rfl

/-! ### The statements -/

/-- Settles O13: bit 5 clear selects the register form whatever bits 4:3 are, and its one effect is the written sum. -/
theorem addRegister : Obligations.AddRegister := by
  unfold Obligations.AddRegister
  exact fun dr sr1 sr2 s =>
    ⟨decode_addReg_word dr sr1 sr2, exists_next_of_exec_eq_setResult (exec_addReg dr sr1 sr2 s)⟩

/-- Settles O14: bit 5 set selects the immediate form, whose sign extension is the signed reading of imm5. -/
theorem addImmediate : Obligations.AddImmediate := by
  unfold Obligations.AddImmediate
  exact fun dr sr1 imm5 s =>
    ⟨decode_addImm_word dr sr1 imm5, exists_next_of_exec_eq_setResult (exec_addImm dr sr1 imm5 s)⟩

/-- Settles O15: bit 5 clear selects the register form whatever bits 4:3 are, and its one effect is the written AND. -/
theorem andRegister : Obligations.AndRegister := by
  unfold Obligations.AndRegister
  exact fun dr sr1 sr2 s =>
    ⟨decode_andReg_word dr sr1 sr2, exists_next_of_exec_eq_setResult (exec_andReg dr sr1 sr2 s)⟩

/-- Settles O16: bit 5 set selects the immediate form, and imm5 is sign-extended before the AND. -/
theorem andImmediate : Obligations.AndImmediate := by
  unfold Obligations.AndImmediate
  exact fun dr sr1 imm5 s =>
    ⟨decode_andImm_word dr sr1 imm5, exists_next_of_exec_eq_setResult (exec_andImm dr sr1 imm5 s)⟩

/-- Settles O17: the opcode and the two register fields decide the decoding, and the one effect is the written
complement. -/
theorem notComplements : Obligations.NotComplements := by
  unfold Obligations.NotComplements
  exact fun dr sr s => ⟨decode_not_word dr sr, exists_next_of_exec_eq_setResult (exec_not dr sr s)⟩

end Sys2Proof.Machine
end

section
/-! The words of the control formats decode to their instruction (30_encoding.md R91, R94 to R96), whatever the don't-care
bits are (R103). -/

namespace Sys2Proof

theorem fieldOff9_append (op : BitVec 4) (n z p : BitVec 1) (off9 : BitVec 9) :
    fieldOff9 (op ++ (n ++ (z ++ (p ++ off9)))) = off9 := by
  rw [fieldOff9, extract_append_low op (n ++ (z ++ (p ++ off9))) 0 9 (by decide),
    extract_append_low n (z ++ (p ++ off9)) 0 9 (by decide), extract_append_low z (p ++ off9) 0 9 (by decide),
    extract_append_low p off9 0 9 (by decide), extract_whole]

theorem fieldOff11_append (op : BitVec 4) (form : BitVec 1) (off11 : BitVec 11) :
    fieldOff11 (op ++ (form ++ off11)) = off11 := by
  rw [fieldOff11, extract_append_low op (form ++ off11) 0 11 (by decide), extract_append_low form off11 0 11 (by decide),
    extract_whole]

/-- Bit 11 is the first condition bit of BR, and tells JSR from JSRR. -/
theorem bit11_append (op : BitVec 4) (b : BitVec 1) (rest : BitVec 11) :
    (op ++ (b ++ rest) : Word).getLsbD 11 = b.getLsbD 0 := by
  rw [bit_append_low op (b ++ rest) 11 (by decide), bit_append_high b rest 11 (by decide)]

theorem bit10_append (op : BitVec 4) (n z : BitVec 1) (rest : BitVec 10) :
    (op ++ (n ++ (z ++ rest)) : Word).getLsbD 10 = z.getLsbD 0 := by
  rw [bit_append_low op (n ++ (z ++ rest)) 10 (by decide), bit_append_low n (z ++ rest) 10 (by decide),
    bit_append_high z rest 10 (by decide)]

theorem bit9_append (op : BitVec 4) (n z p : BitVec 1) (rest : BitVec 9) :
    (op ++ (n ++ (z ++ (p ++ rest))) : Word).getLsbD 9 = p.getLsbD 0 := by
  rw [bit_append_low op (n ++ (z ++ (p ++ rest))) 9 (by decide), bit_append_low n (z ++ (p ++ rest)) 9 (by decide),
    bit_append_low z (p ++ rest) 9 (by decide), bit_append_high p rest 9 (by decide)]

theorem decode_of_opcode_br {w : Word} (hop : w.extractLsb' 12 4 = 0x0#4) :
    decode w = .br (w.getLsbD 11) (w.getLsbD 10) (w.getLsbD 9) (fieldOff9 w) := by
  rw [decode, hop]; rfl

theorem decode_of_opcode_jump {w : Word} (hop : w.extractLsb' 12 4 = 0xC#4) : decode w = decodeJump (fieldBase w) := by
  rw [decode, hop]; rfl

theorem decode_of_opcode_call {w : Word} (hop : w.extractLsb' 12 4 = 0x4#4) :
    decode w = if w.getLsbD 11 then .jsr (fieldOff11 w) else .jsrr (fieldBase w) := by
  rw [decode, hop]; rfl

theorem decode_br_word (n z p : Bool) (off9 : BitVec 9) :
    decode (0x0#4 ++ (BitVec.ofBool n ++ (BitVec.ofBool z ++ (BitVec.ofBool p ++ off9)))) = .br n z p off9 := by
  rw [decode_of_opcode_br (top_append _ _), bit11_append, bit10_append, bit9_append, fieldOff9_append]
  simp only [BitVec.getLsbD_ofBool, decide_true, Bool.true_and]

theorem decode_jump_word (base : Reg) (x : BitVec 3) (y : BitVec 6) :
    decode (0xC#4 ++ (x ++ (bitsOfReg base ++ y))) = if base = .r7 then .ret else .jmp base := by
  rw [decode_of_opcode_jump (top_append _ _), fieldBase_append, decodeJump]

theorem decode_jsr_word (off11 : BitVec 11) : decode (0x4#4 ++ (1#1 ++ off11)) = .jsr off11 := by
  rw [decode_of_opcode_call (top_append _ _), bit11_append, fieldOff11_append]
  rfl

end Sys2Proof
end

section
/-! BR, JMP, RET and JSR (42_control.md): each writes the PC and, for JSR, the link in R7. -/

namespace Sys2Proof.Machine

/-! ### The effect of a transfer -/

theorem State.setPc_wentTo (s : State) (target : Word) : WentTo target false s (s.setPc target) :=
  ⟨s.setPc_pc target, fun r _ => s.setPc_reg target r, s.setPc_nzp target, ⟨s.setPc_cell target, s.setPc_keys target⟩,
    ⟨rfl, rfl, rfl⟩, ⟨rfl, rfl⟩⟩

/-- Falling through is going to the post-increment PC. -/
theorem State.wentTo_self (s : State) : WentTo s.pc false s s := s.setPc_wentTo s.pc

/-- A register write changes no other register. -/
theorem State.setReg_sameRegsBut (s : State) (r : Reg) (v : Word) : SameRegsBut [r] s (s.setReg r v) :=
  fun r' hr' => (s.reg_setReg r r' v).trans (if_neg (List.ne_of_not_mem_cons hr'))

/-- The link in R7, then the jump (R165). -/
theorem State.setReg_setPc_wentTo (s : State) (target : Word) :
    WentTo target true s ((s.setReg .r7 s.pc).setPc target) :=
  ⟨rfl, ⟨(s.reg_setReg .r7 .r7 s.pc).trans (if_pos rfl), s.setReg_sameRegsBut .r7 s.pc⟩, rfl, ⟨fun _ => rfl, rfl⟩,
    ⟨rfl, rfl, rfl⟩, ⟨rfl, rfl⟩⟩

/-- The branch test in the words of R160. -/
theorem branchTest_iff (n z p : Bool) (f : NZP) :
    branchTest n z p f = true ↔ (n = true ∧ f.n = true) ∨ (z = true ∧ f.z = true) ∨ (p = true ∧ f.p = true) := by
  simp only [branchTest, Bool.or_eq_true, Bool.and_eq_true, or_assoc]

/-! ### What each control instruction writes (R160 to R165) -/

theorem exec_br_taken {n z p : Bool} {s : State} (off9 : BitVec 9) (h : branchTest n z p s.nzp = true) :
    exec (.br n z p off9) s = .next (s.setPc (s.pc + displacement off9)) :=
  congrArg Host.Outcome.next (if_pos h)

theorem exec_br_not_taken {n z p : Bool} {s : State} (off9 : BitVec 9) (h : ¬ branchTest n z p s.nzp = true) :
    exec (.br n z p off9) s = .next s :=
  congrArg Host.Outcome.next (if_neg h)

theorem exec_jmp (base : Reg) (s : State) : exec (.jmp base) s = .next (s.setPc (s.reg base)) := rfl

theorem exec_ret_eq_jmp_r7 (s : State) : exec .ret s = exec (.jmp .r7) s := rfl

theorem exec_jsr (off11 : BitVec 11) (s : State) :
    exec (.jsr off11) s = .next ((s.setReg .r7 s.pc).setPc (s.pc + displacement off11)) := by
  rw [← sext_eq_displacement]; rfl

/-! ### The statements -/

/-- Settles O20: the opcode and the three condition bits decide the decoding, and the two branches of the test are a
written and an unchanged PC. -/
theorem branchOnFlags : Obligations.BranchOnFlags := by
  unfold Obligations.BranchOnFlags
  refine fun n z p off9 s => ⟨decode_br_word n z p off9, ?_⟩
  simp only [← branchTest_iff]
  split_ifs with htest
  · exact ⟨_, exec_br_taken off9 htest, s.setPc_wentTo _⟩
  · exact ⟨s, exec_br_not_taken off9 htest, s.wentTo_self⟩

/-- Settles O21: opcode 0xC decodes by its base field alone, and the one effect is the written PC. -/
theorem jumpToRegister : Obligations.JumpToRegister := by
  unfold Obligations.JumpToRegister
  exact fun base s => ⟨decode_jump_word base, _, exec_jmp base s, s.setPc_wentTo _⟩

/-- Settles O22: 111 is the field of R7, so RET's words are those of JMP R7, and so is its meaning. -/
theorem returnIsJumpThroughR7 : Obligations.ReturnIsJumpThroughR7 := by
  unfold Obligations.ReturnIsJumpThroughR7
  have hword : ∀ (x : BitVec 3) (y : BitVec 6), decode (0xC#4 ++ (x ++ (7#3 ++ y))) = .ret := decode_jump_word .r7
  exact fun s => ⟨hword, hword 0#3 0#6, exec_ret_eq_jmp_r7 s, _,
    (exec_ret_eq_jmp_r7 s).trans (exec_jmp .r7 s), s.setPc_wentTo _⟩

/-- Settles O23: bit 11 set selects JSR, which saves the post-increment PC and writes the PC from it. -/
theorem callRelative : Obligations.CallRelative := by
  unfold Obligations.CallRelative
  exact fun off11 s => ⟨decode_jsr_word off11, _, exec_jsr off11 s, s.setReg_setPc_wentTo _⟩

end Sys2Proof.Machine
end

section
/-! The words of the load, store and LEA formats decode to their instruction (30_encoding.md R91, R97, R98). -/

namespace Sys2Proof

theorem fieldOff9_append_reg (op : BitVec 4) (r : BitVec 3) (off9 : BitVec 9) : fieldOff9 (op ++ (r ++ off9)) = off9 := by
  rw [fieldOff9, extract_append_low op (r ++ off9) 0 9 (by decide), extract_append_low r off9 0 9 (by decide), extract_whole]

theorem fieldOff6_append (op : BitVec 4) (d b : BitVec 3) (off6 : BitVec 6) :
    fieldOff6 (op ++ (d ++ (b ++ off6))) = off6 := by
  rw [fieldOff6, extract_low6 op d b off6 0 6 (by decide), extract_whole]

theorem decode_ld_word (dr : Reg) (off9 : BitVec 9) : decode (0x2#4 ++ (bitsOfReg dr ++ off9)) = .ld dr off9 := by
  rw [decode, top_append, fieldDR_append, fieldOff9_append_reg]; rfl

theorem decode_ldi_word (dr : Reg) (off9 : BitVec 9) : decode (0xA#4 ++ (bitsOfReg dr ++ off9)) = .ldi dr off9 := by
  rw [decode, top_append, fieldDR_append, fieldOff9_append_reg]; rfl

theorem decode_lea_word (dr : Reg) (off9 : BitVec 9) : decode (0xE#4 ++ (bitsOfReg dr ++ off9)) = .lea dr off9 := by
  rw [decode, top_append, fieldDR_append, fieldOff9_append_reg]; rfl

theorem decode_st_word (sr : Reg) (off9 : BitVec 9) : decode (0x3#4 ++ (bitsOfReg sr ++ off9)) = .st sr off9 := by
  rw [decode, top_append, fieldDR_append, fieldOff9_append_reg]; rfl

theorem decode_sti_word (sr : Reg) (off9 : BitVec 9) : decode (0xB#4 ++ (bitsOfReg sr ++ off9)) = .sti sr off9 := by
  rw [decode, top_append, fieldDR_append, fieldOff9_append_reg]; rfl

theorem decode_ldr_word (dr base : Reg) (off6 : BitVec 6) :
    decode (0x6#4 ++ (bitsOfReg dr ++ (bitsOfReg base ++ off6))) = .ldr dr base off6 := by
  rw [decode, top_append, fieldDR_append, fieldBase_append, fieldOff6_append]; rfl

theorem decode_str_word (sr base : Reg) (off6 : BitVec 6) :
    decode (0x7#4 ++ (bitsOfReg sr ++ (bitsOfReg base ++ off6))) = .str sr base off6 := by
  rw [decode, top_append, fieldDR_append, fieldBase_append, fieldOff6_append]; rfl

end Sys2Proof
end

section
/-! Loads, LEA and stores (43_load_store.md): the reads change nothing but memory and the draws, and what follows them is
one written result or one written cell. -/

namespace Sys2Proof.Machine

/-! ### What a read and a store leave unchanged -/

/-- Registers, flags, the PC, the run and the console are unchanged; memory and the draws of KeyPoll are not spoken of. -/
def SameButMemory (s t : State) : Prop :=
  SameRegsBut [] s t ∧ t.nzp = s.nzp ∧ t.pc = s.pc ∧ SameControl s t ∧ SameConsole s t

theorem SameButMemory.trans {s u t : State} (hsu : SameButMemory s u) (hut : SameButMemory u t) : SameButMemory s t := by
  obtain ⟨hreg, hnzp, hpc, ⟨hrun, herr, hstop⟩, hout, hin⟩ := hsu
  obtain ⟨hreg', hnzp', hpc', ⟨hrun', herr', hstop'⟩, hout', hin'⟩ := hut
  exact ⟨fun r hr => (hreg' r hr).trans (hreg r hr), hnzp'.trans hnzp, hpc'.trans hpc,
    ⟨hrun'.trans hrun, herr'.trans herr, hstop'.trans hstop⟩, hout'.trans hout, hin'.trans hin⟩

/-- The side effects of a read are on the keyboard cells and the draws alone (20_memory.md R64 to R67). -/
theorem State.memRead_sameButMemory (s : State) (a : Word) : SameButMemory s (s.memRead a).2 :=
  ⟨fun r _ => s.memRead_reg a r, s.memRead_nzp a, s.memRead_pc a,
    ⟨s.memRead_run a, s.memRead_err a, s.memRead_stopReq a⟩, s.memRead_out a, s.memRead_input a⟩

theorem State.memWrite_sameButMemory (s : State) (a v : Word) : SameButMemory s (s.memWrite a v) :=
  ⟨fun _ _ => rfl, rfl, rfl, ⟨rfl, rfl, rfl⟩, rfl, rfl⟩

theorem State.memWrite_storedAt {s : State} (hm : s.mem.wf) (a v : Word) : StoredAt a v s (s.memWrite a v) :=
  ⟨State.cell_setCell hm a v, rfl, s.memWrite_sameButMemory a v⟩

/-- A result written after reads is a result written to the state before them. -/
theorem SameButMemory.resultIn {s u t : State} {dr : Reg} {v : Word} (hsu : SameButMemory s u)
    (h : ResultIn dr v u t) : ResultIn dr v s t := by
  obtain ⟨hreg, -, hpc, ⟨hrun, herr, hstop⟩, hout, hin⟩ := hsu
  obtain ⟨hdr, hnzp, hreg', hpc', ⟨hrun', herr', hstop'⟩, hout', hin'⟩ := h
  exact ⟨hdr, hnzp, fun r hr => (hreg' r hr).trans (hreg r List.not_mem_nil), hpc'.trans hpc,
    ⟨hrun'.trans hrun, herr'.trans herr, hstop'.trans hstop⟩, hout'.trans hout, hin'.trans hin⟩

/-- A load whose reads lead to `u` completes with its result there, and with memory and the draws as `u` has them. -/
theorem exists_next_of_exec_eq_setResult_after {i : Instr} {s u : State} {dr : Reg} {v : Word}
    (hread : SameButMemory s u) (h : exec i s = .next (u.setResult dr v)) :
    ∃ t, exec i s = .next t ∧ ResultIn dr v s t ∧ SameMemory u t :=
  ⟨u.setResult dr v, h, hread.resultIn (u.setResult_resultIn dr v), u.setResult_sameMemory dr v⟩

/-! ### What each instruction reads and writes (R180 to R187) -/

theorem pcRelative_eq_displacement {k : Nat} (s : State) (off : BitVec k) : pcRelative s off = s.pc + displacement off :=
  congrArg (s.pc + ·) (sext_eq_displacement off)

theorem baseOffset_eq_displacement (s : State) (base : Reg) (off6 : BitVec 6) :
    baseOffset s base off6 = s.reg base + displacement off6 :=
  congrArg (s.reg base + ·) (sext_eq_displacement off6)

theorem exec_ld (dr : Reg) (off9 : BitVec 9) (s : State) :
    exec (.ld dr off9) s =
      .next ((s.memRead (s.pc + displacement off9)).2.setResult dr (s.memRead (s.pc + displacement off9)).1) := by
  rw [← pcRelative_eq_displacement]; rfl

theorem exec_ldi (dr : Reg) (off9 : BitVec 9) (s : State) :
    let p := s.memRead (s.pc + displacement off9)
    exec (.ldi dr off9) s = .next ((p.2.memRead p.1).2.setResult dr (p.2.memRead p.1).1) := by
  rw [← pcRelative_eq_displacement]; rfl

theorem exec_ldr (dr base : Reg) (off6 : BitVec 6) (s : State) :
    exec (.ldr dr base off6) s =
      .next ((s.memRead (s.reg base + displacement off6)).2.setResult dr (s.memRead (s.reg base + displacement off6)).1) := by
  rw [← baseOffset_eq_displacement]; rfl

theorem exec_lea (dr : Reg) (off9 : BitVec 9) (s : State) :
    exec (.lea dr off9) s = .next (s.setResult dr (s.pc + displacement off9)) := by
  rw [← pcRelative_eq_displacement]; rfl

theorem exec_st (sr : Reg) (off9 : BitVec 9) (s : State) :
    exec (.st sr off9) s = .next (s.memWrite (s.pc + displacement off9) (s.reg sr)) := by
  rw [← pcRelative_eq_displacement]; rfl

/-- The pointer read leaves SR alone, so it may be read before or after. -/
theorem exec_sti (sr : Reg) (off9 : BitVec 9) (s : State) :
    let p := s.memRead (s.pc + displacement off9)
    exec (.sti sr off9) s = .next (p.2.memWrite p.1 (s.reg sr)) := by
  rw [← pcRelative_eq_displacement, ← s.memRead_reg (pcRelative s off9) sr]; rfl

theorem exec_str (sr base : Reg) (off6 : BitVec 6) (s : State) :
    exec (.str sr base off6) s = .next (s.memWrite (s.reg base + displacement off6) (s.reg sr)) := by
  rw [← baseOffset_eq_displacement]; rfl

/-! ### The statements -/

/-- Settles O31: the one read leads to a state that differs in memory and draws alone, and the result is written there. -/
theorem loadRelative : Obligations.LoadRelative := by
  unfold Obligations.LoadRelative
  exact fun dr off9 s => ⟨decode_ld_word dr off9,
    exists_next_of_exec_eq_setResult_after (s.memRead_sameButMemory _) (exec_ld dr off9 s)⟩

/-- Settles O32: the two reads in order lead to a state that differs in memory and draws alone, and the result is
written there. -/
theorem loadIndirect : Obligations.LoadIndirect := by
  unfold Obligations.LoadIndirect
  exact fun dr off9 s => ⟨decode_ldi_word dr off9,
    exists_next_of_exec_eq_setResult_after ((s.memRead_sameButMemory _).trans (State.memRead_sameButMemory _ _))
      (exec_ldi dr off9 s)⟩

/-- Settles O33: the address is taken from the state before the result is written, so DR may be the base itself. -/
theorem loadBaseOffset : Obligations.LoadBaseOffset := by
  unfold Obligations.LoadBaseOffset
  exact fun dr base off6 s => ⟨decode_ldr_word dr base off6,
    exists_next_of_exec_eq_setResult_after (s.memRead_sameButMemory _) (exec_ldr dr base off6 s)⟩

/-- Settles O34: the address itself is the one written result, as for an operate instruction. -/
theorem loadEffectiveAddress : Obligations.LoadEffectiveAddress := by
  unfold Obligations.LoadEffectiveAddress
  exact fun dr off9 s => ⟨decode_lea_word dr off9, exists_next_of_exec_eq_setResult (exec_lea dr off9 s)⟩

/-- Settles O35: the one effect is the written cell. -/
theorem storeRelative : Obligations.StoreRelative := by
  unfold Obligations.StoreRelative
  exact fun sr off9 s hm => ⟨decode_st_word sr off9, _, exec_st sr off9 s, State.memWrite_storedAt hm _ _⟩

/-- Settles O36: the pointer read keeps the canonical form, so the cell is written to canonical memory, and neither the
read nor the write changes anything but memory and draws. -/
theorem storeIndirect : Obligations.StoreIndirect := by
  unfold Obligations.StoreIndirect
  exact fun sr off9 s hm => ⟨decode_sti_word sr off9, _, exec_sti sr off9 s,
    State.memWrite_storedAt (State.memRead_wf hm _) _ _,
    (s.memRead_sameButMemory _).trans (State.memWrite_sameButMemory _ _ _)⟩

/-- Settles O37: the one effect is the written cell. -/
theorem storeBaseOffset : Obligations.StoreBaseOffset := by
  unfold Obligations.StoreBaseOffset
  exact fun sr base off6 s hm => ⟨decode_str_word sr base off6, _, exec_str sr base off6 s, State.memWrite_storedAt hm _ _⟩

end Sys2Proof.Machine
end

section
/-! The words of JSRR, TRAP and the illegal opcodes decode to their instruction (30_encoding.md R91, R95, R96, R99, R104), and the
decoder and the encoder agree (R107, R108). -/

namespace Sys2Proof

open Laws.OpcodeField (opcode)

/-! ### The remaining formats -/

theorem decode_jsrr_word (base : Reg) (x : BitVec 2) (y : BitVec 6) :
    decode (0x4#4 ++ (0#1 ++ (x ++ (bitsOfReg base ++ y)))) = .jsrr base := by
  have hbase : fieldBase (0x4#4 ++ (0#1 ++ (x ++ (bitsOfReg base ++ y)))) = base := by
    rw [fieldBase, extract_append_low _ _ 6 3 (by decide), extract_append_low _ _ 6 3 (by decide),
      extract_append_low _ _ 6 3 (by decide), extract_append_high _ _ 6 3 (by decide), extract_whole, regOfBits_bitsOfReg]
  rw [decode_of_opcode_call (top_append _ _), bit11_append, hbase]
  rfl

theorem decode_of_opcode_illegal8 {w : Word} (hop : w.extractLsb' 12 4 = 0x8#4) :
    decode w = .illegal8 (w.extractLsb' 0 12) := by
  rw [decode, hop]; rfl

theorem decode_of_opcode_illegalD {w : Word} (hop : w.extractLsb' 12 4 = 0xD#4) :
    decode w = .illegalD (w.extractLsb' 0 12) := by
  rw [decode, hop]; rfl

theorem decode_of_opcode_trap {w : Word} (hop : w.extractLsb' 12 4 = 0xF#4) :
    decode w = decodeTrap (w.extractLsb' 8 4) (w.extractLsb' 0 8) := by
  rw [decode, hop]; rfl

theorem extract_rest_append (op : BitVec 4) (rest : BitVec 12) : (op ++ rest : Word).extractLsb' 0 12 = rest := by
  rw [extract_append_low _ _ 0 12 (by decide), extract_whole]

theorem decode_illegal8_word (rest : BitVec 12) : decode (0x8#4 ++ rest) = .illegal8 rest := by
  rw [decode_of_opcode_illegal8 (top_append _ _), extract_rest_append]

theorem decode_illegalD_word (rest : BitVec 12) : decode (0xD#4 ++ rest) = .illegalD rest := by
  rw [decode_of_opcode_illegalD (top_append _ _), extract_rest_append]

theorem decode_opcode_trap_word (x : BitVec 4) (v : BitVec 8) : decode (0xF#4 ++ (x ++ v)) = decodeTrap x v := by
  rw [decode_of_opcode_trap (top_append _ _), extract_append_low _ (x ++ v) 8 4 (by decide),
    extract_append_high x v 8 4 (by decide), extract_whole, extract_append_low _ (x ++ v) 0 8 (by decide),
    extract_append_low x v 0 8 (by decide), extract_whole]

/-- A code outside the table names no routine (R107). -/
theorem decodeTrap_of_not_mem (x : BitVec 4) {v : BitVec 8} (h : v ∉ trapTable) : decodeTrap x v = .trap x v := by
  have hne : ∀ c ∈ trapTable, v.toNat ≠ c.toNat := fun c hc heq => h (BitVec.eq_of_toNat_eq heq ▸ hc)
  simp only [trapTable, List.forall_mem_cons] at hne
  obtain ⟨h0, h1, h2, h3, h4, h5, -⟩ := hne
  unfold decodeTrap
  split
  · exact absurd ‹_› h0
  · exact absurd ‹_› h1
  · exact absurd ‹_› h2
  · exact absurd ‹_› h3
  · exact absurd ‹_› h4
  · exact absurd ‹_› h5
  · rfl

theorem decodeTrap_eq (x : BitVec 4) (v : BitVec 8) :
    decodeTrap x v =
      if v = 0x20#8 then .getc else if v = 0x21#8 then .out else if v = 0x22#8 then .puts
      else if v = 0x23#8 then .inChar else if v = 0x24#8 then .putsp else if v = 0x25#8 then .halt else .trap x v := by
  split_ifs with h0 h1 h2 h3 h4 h5
  · rw [h0]; rfl
  · rw [h1]; rfl
  · rw [h2]; rfl
  · rw [h3]; rfl
  · rw [h4]; rfl
  · rw [h5]; rfl
  · exact decodeTrap_of_not_mem x (by simp [trapTable, h0, h1, h2, h3, h4, h5])

/-! ### Decoding what the encoder wrote -/

theorem decode_encode {i : Instr} (h : i.wellFormed = true) : decode (encode i) = i := by
  cases i with
  | addReg dr sr1 sr2 => exact decode_addReg_word dr sr1 sr2 0#2
  | addImm dr sr1 imm5 => exact decode_addImm_word dr sr1 imm5
  | andReg dr sr1 sr2 => exact decode_andReg_word dr sr1 sr2 0#2
  | andImm dr sr1 imm5 => exact decode_andImm_word dr sr1 imm5
  | not dr sr => exact decode_not_word dr sr 0x3F#6
  | br n z p off9 => exact decode_br_word n z p off9
  | jmp base => exact (decode_jump_word base 0#3 0#6).trans (if_neg (of_decide_eq_true h))
  | ret => exact decode_jump_word .r7 0#3 0#6
  | jsr off11 => exact decode_jsr_word off11
  | jsrr base => exact decode_jsrr_word base 0#2 0#6
  | ld dr off9 => exact decode_ld_word dr off9
  | ldi dr off9 => exact decode_ldi_word dr off9
  | lea dr off9 => exact decode_lea_word dr off9
  | st sr off9 => exact decode_st_word sr off9
  | sti sr off9 => exact decode_sti_word sr off9
  | ldr dr base off6 => exact decode_ldr_word dr base off6
  | str sr base off6 => exact decode_str_word sr base off6
  | trap x v => exact (decode_opcode_trap_word x v).trans (decodeTrap_of_not_mem x (of_decide_eq_true h))
  | getc => exact decode_opcode_trap_word 0#4 0x20#8
  | out => exact decode_opcode_trap_word 0#4 0x21#8
  | puts => exact decode_opcode_trap_word 0#4 0x22#8
  | inChar => exact decode_opcode_trap_word 0#4 0x23#8
  | putsp => exact decode_opcode_trap_word 0#4 0x24#8
  | halt => exact decode_opcode_trap_word 0#4 0x25#8
  | illegal8 rest => exact decode_illegal8_word rest
  | illegalD rest => exact decode_illegalD_word rest

/-! ### What a Word decodes to -/

theorem decodeJump_wellFormed (base : Reg) : (decodeJump base).wellFormed = true := by
  unfold decodeJump
  split_ifs with h
  · rfl
  · exact decide_eq_true h

theorem decodeTrap_wellFormed (x : BitVec 4) (v : BitVec 8) : (decodeTrap x v).wellFormed = true := by
  by_cases h : v ∈ trapTable
  · rw [decodeTrap_eq]
    simp only [trapTable, List.mem_cons, List.not_mem_nil, or_false] at h
    obtain rfl | rfl | rfl | rfl | rfl | rfl := h <;> rfl
  · rw [decodeTrap_of_not_mem x h]
    exact decide_eq_true h

theorem opcode_decodeJump (base : Reg) : opcode (decodeJump base) = 0xC#4 := by
  unfold decodeJump
  split_ifs <;> rfl

theorem opcode_decodeTrap (x : BitVec 4) (v : BitVec 8) : opcode (decodeTrap x v) = 0xF#4 := by
  unfold decodeTrap
  split <;> rfl

theorem decode_wellFormed (w : Word) : (decode w).wellFormed = true := by
  unfold decode
  split
  case h_13 => exact decodeJump_wellFormed _
  case h_16 => exact decodeTrap_wellFormed _ _
  case h_2 | h_5 | h_6 => split <;> rfl
  all_goals rfl

/-- The decoder goes by the opcode map (R100). -/
theorem opcode_decode (w : Word) : opcode (decode w) = w.extractLsb' 12 4 := by
  have hlt : (w.extractLsb' 12 4).toNat < 16 := (w.extractLsb' 12 4).isLt
  apply BitVec.eq_of_toNat_eq
  unfold decode
  split
  case h_13 hop => rw [hop, opcode_decodeJump]; rfl
  case h_16 =>
    simp only [imp_false] at *
    rw [opcode_decodeTrap]
    change 15 = _
    omega
  case h_2 hop | h_5 hop | h_6 hop => rw [hop]; split <;> rfl
  all_goals exact Eq.symm ‹_›

theorem opcode_append_rest (w : Word) : (w.extractLsb' 12 4 ++ w.extractLsb' 0 12 : Word) = w :=
  BitVec.extractLsb'_append_extractLsb' (w := 4) (len := 12)

theorem encode_decode_of_illegal {w : Word} (h : w.extractLsb' 12 4 = 0x8#4 ∨ w.extractLsb' 12 4 = 0xD#4) :
    encode (decode w) = w := by
  obtain h | h := h
  · rw [decode_of_opcode_illegal8 h, encode, ← h, opcode_append_rest]
  · rw [decode_of_opcode_illegalD h, encode, ← h, opcode_append_rest]

/-! ### The statements -/

/-- Settles O1: the encoder writes each format with one choice of its don't-care bits, and every choice decodes back. -/
theorem decodeOfEncode : Obligations.DecodeOfEncode := by
  unfold Obligations.DecodeOfEncode
  exact fun _ h => decode_encode h

/-- Settles O2: the decoder prefers RET and the routines' names, and well-formed instructions decode back. -/
theorem decodeIsWellFormed : Obligations.DecodeIsWellFormed := by
  unfold Obligations.DecodeIsWellFormed
  exact fun w => ⟨decode_wellFormed w, decode_encode (decode_wellFormed w)⟩

/-- Settles O3: the decoded instruction shows its word's opcode, so no other opcode gives an illegal instruction. -/
theorem illegalAndTrapWordsDecode : Obligations.IllegalAndTrapWordsDecode := by
  unfold Obligations.IllegalAndTrapWordsDecode
  refine ⟨fun w => ⟨⟨?_, fun h => ⟨_, decode_of_opcode_illegal8 h⟩⟩, ⟨?_, fun h => ⟨_, decode_of_opcode_illegalD h⟩⟩,
    encode_decode_of_illegal⟩, fun x v => (decode_opcode_trap_word x v).trans (decodeTrap_eq x v)⟩
  · rintro ⟨rest, h⟩
    rw [← opcode_decode, h]
    rfl
  · rintro ⟨rest, h⟩
    rw [← opcode_decode, h]
    rfl

/-- Settles O4: each word is a fixed one, which the decoder evaluates. -/
theorem writtenWordsDecode : Obligations.WrittenWordsDecode := by
  unfold Obligations.WrittenWordsDecode
  decide

end Sys2Proof
end

section
/-! What an instruction can do, said once: the single updates it is made of, and how it ends the run. What each instruction leaves
unchanged follows by going through the updates. -/

namespace Sys2Proof.Machine

/-! ### The updates -/

/-- The states `i` can come to from `s` by the updates its row allows, before it may end the run: a TRAP begins with its entry (R210),
and each update names the table that allows it. -/
inductive Updates (i : Instr) (s : State) : State → Prop where
  | start (htrap : isTrap i = false) : Updates i s s
  | entry (htrap : isTrap i = true) : Updates i s s.trapEntry
  | jump {u : State} (target : Word) (htransfers : transfers i = true) (hu : Updates i s u) : Updates i s (u.setPc target)
  | link {u : State} (hwrites : .r7 ∈ writes i) (hu : Updates i s u) : Updates i s (u.setReg .r7 s.pc)
  | result {u : State} {r : Reg} (v : Word) (hwrites : r ∈ writes i) (hr0 : isTrap i = false ∨ r = .r0) (hu : Updates i s u) :
      Updates i s (u.setResult r v)
  | read {u : State} (a : Word) (hu : Updates i s u) : Updates i s (u.memRead a).2
  | store {u : State} {a : Word} (v : Word) (haddr : storeAddress i s = some a) (hu : Updates i s u) : Updates i s (u.memWrite a v)
  | print {u : State} (bs : List Byte) (htrap : isTrap i = true) (hu : Updates i s u) : Updates i s (u.consoleWrite bs)
  | input {u : State} (d : Draws) (htrap : isTrap i = true) (hu : Updates i s u) : Updates i s { u with input := d }

/-- How an instruction leaves the run: as it was, HALTED, or ERROR with a record. -/
inductive EndsRun (u : State) : State → Prop where
  | goesOn : EndsRun u u
  | halts : EndsRun u u.haltRun
  | fails (kind : ErrorKind) (word : Word) : EndsRun u (u.raiseFatal kind word)

/-- What an instruction does in a step that has a next state. -/
def Does (i : Instr) (s t : State) : Prop := ∃ u, Updates i s u ∧ EndsRun u t

theorem Updates.does {i : Instr} {s u : State} (h : Updates i s u) : Does i s u := ⟨u, h, .goesOn⟩

/-! ### The routines -/

section
variable {i : Instr} {s t : State}

theorem does_of_execGetc_next (htrap : isTrap i = true) (hr0 : .r0 ∈ writes i) (h : execGetc s = .next t) : Does i s t := by
  obtain ⟨c, -, hc⟩ | ⟨-, hwait⟩ := routineGetc_cases s.trapEntry
  · rw [← Host.Outcome.next.inj (hc.symm.trans h)]
    exact (((Updates.entry htrap).input _ htrap).result c hr0 (.inr rfl)).does
  · cases hwait.symm.trans h

theorem does_of_execIn_next (htrap : isTrap i = true) (hr0 : .r0 ∈ writes i) (h : execIn s = .next t) : Does i s t := by
  obtain ⟨c, -, hc⟩ | ⟨-, hwait⟩ := routineIn_cases Config.inPrompt s.trapEntry
  · rw [← Host.Outcome.next.inj (hc.symm.trans h)]
    exact (((((Updates.entry htrap).input _ htrap).print _ htrap).print _ htrap).result c hr0 (.inr rfl)).does
  · cases hwait.symm.trans h

/-- PUTS and PUTSP answer a next state only where a run of the loop ends (R221). -/
theorem routineScan_eq_next {unpack : Word → List Byte × Bool} :
    routineScan unpack s = .next t ↔ ∃ fuel, scanString unpack fuel (s.reg .r0) s = some t := by
  constructor
  · intro h
    obtain ⟨u, fuel, hscan, hu⟩ | ⟨-, hends⟩ := routineScan_cases (unpack := unpack) s
    · exact ⟨fuel, Host.Outcome.next.inj (hu.symm.trans h) ▸ hscan⟩
    · cases hends.symm.trans h
  · intro h
    rw [routineScan, scanToEnd_eq, scanLoop_eq_some.2 h]

theorem does_of_routineScan_next {unpack : Word → List Byte × Bool} (htrap : isTrap i = true)
    (h : routineScan unpack s.trapEntry = .next t) : Does i s t := by
  obtain ⟨fuel, hscan⟩ := routineScan_eq_next.1 h
  exact (scanString_keeps (P := Updates i s) (fun _ a hu => hu.read a) (fun _ bs hu => hu.print bs htrap) hscan (.entry htrap)).does

theorem does_of_execOut_next (htrap : isTrap i = true) (h : execOut s = .next t) : Does i s t := by
  rw [← Host.Outcome.next.inj h]
  exact ((Updates.entry htrap).print _ htrap).does

theorem does_of_execHalt_next (htrap : isTrap i = true) (h : execHalt s = .next t) : Does i s t := by
  rw [← Host.Outcome.next.inj h]
  exact ⟨_, (Updates.entry htrap).print _ htrap, .halts⟩

theorem does_of_execTrap_next {x : BitVec 4} {v : BitVec 8} (h : execTrap x v s = .next t) : Does (.trap x v) s t := by
  obtain ⟨rfl, hrun⟩ | ⟨rfl, hrun⟩ | ⟨rfl, hrun⟩ | ⟨rfl, hrun⟩ | ⟨rfl, hrun⟩ | ⟨rfl, hrun⟩ | ⟨-, hrun⟩ := execTrap_cases x v s
  · exact does_of_execGetc_next rfl (.tail _ (.head _)) (hrun.symm.trans h)
  · exact does_of_execOut_next rfl (hrun.symm.trans h)
  · exact does_of_routineScan_next rfl (hrun.symm.trans h)
  · exact does_of_execIn_next rfl (.tail _ (.head _)) (hrun.symm.trans h)
  · exact does_of_routineScan_next rfl (hrun.symm.trans h)
  · exact does_of_execHalt_next rfl (hrun.symm.trans h)
  · rw [← Host.Outcome.next.inj (hrun.symm.trans h)]
    exact ⟨_, .entry rfl, .fails _ _⟩

end

/-- Every instruction is made of the updates its row allows. -/
theorem does_of_exec_next {i : Instr} {s t : State} (h : exec i s = .next t) : Does i s t := by
  cases i with
  | addReg | addImm | andReg | andImm | not | lea =>
    rw [← Host.Outcome.next.inj h]
    exact ((Updates.start rfl).result _ (.head _) (.inl rfl)).does
  | ld | ldr =>
    rw [← Host.Outcome.next.inj h]
    exact (((Updates.start rfl).read _).result _ (.head _) (.inl rfl)).does
  | ldi =>
    rw [← Host.Outcome.next.inj h]
    exact ((((Updates.start rfl).read _).read _).result _ (.head _) (.inl rfl)).does
  | br n z p off9 =>
    rw [← Host.Outcome.next.inj h]
    split
    · exact ((Updates.start rfl).jump _ rfl).does
    · exact (Updates.start rfl).does
  | jmp | ret =>
    rw [← Host.Outcome.next.inj h]
    exact ((Updates.start rfl).jump _ rfl).does
  | jsr | jsrr =>
    rw [← Host.Outcome.next.inj h]
    exact (((Updates.start rfl).link (.head _)).jump _ rfl).does
  | st | str =>
    rw [← Host.Outcome.next.inj h]
    exact ((Updates.start rfl).store _ rfl).does
  | sti =>
    rw [← Host.Outcome.next.inj h]
    exact (((Updates.start rfl).read _).store _ rfl).does
  | illegal8 | illegalD =>
    rw [← Host.Outcome.next.inj h]
    exact ⟨_, .start rfl, .fails _ _⟩
  | trap => exact does_of_execTrap_next h
  | getc => exact does_of_execGetc_next rfl (.tail _ (.head _)) h
  | inChar => exact does_of_execIn_next rfl (.tail _ (.head _)) h
  | puts | putsp => exact does_of_routineScan_next rfl h
  | out => exact does_of_execOut_next rfl h
  | halt => exact does_of_execHalt_next rfl h

/-- The end of the run touches nothing but the run state and the error record. -/
theorem Does.exists_updates {i : Instr} {s t : State} (h : Does i s t) :
    ∃ (u : State) (r : RunState) (e : Option ErrorRecord), Updates i s u ∧ t = { u with run := r, err := e } := by
  obtain ⟨u, hu, hend⟩ := h
  cases hend with
  | goesOn => exact ⟨t, t.run, t.err, hu, rfl⟩
  | halts => exact ⟨u, .halted, u.err, hu, rfl⟩
  | fails kind word => exact ⟨u, .error, some ⟨kind, u.pc - 1#16, word⟩, hu, rfl⟩

end Sys2Proof.Machine
end

section
/-! What the updates leave unchanged, and so every instruction (10_state.md, B1 to B8). -/

namespace Sys2Proof.Machine

variable {i : Instr} {s t u : State}

/-! ### The frames of the updates -/

theorem Updates.sameControl (h : Updates i s u) : SameControl s u := by
  induction h with
  | start | entry => exact ⟨rfl, rfl, rfl⟩
  | jump _ _ _ ih | link _ _ ih | result _ _ _ _ ih | store _ _ _ ih | print _ _ _ ih | input _ _ _ ih => exact ih
  | @read u a _ ih =>
    obtain ⟨hrun, herr, hstop⟩ := ih
    exact ⟨(u.memRead_run a).trans hrun, (u.memRead_err a).trans herr, (u.memRead_stopReq a).trans hstop⟩

theorem Updates.pc (h : Updates i s u) (htransfers : transfers i = false) : u.pc = s.pc := by
  induction h with
  | start | entry => rfl
  | jump _ hjump => cases htransfers.symm.trans hjump
  | link _ _ ih | result _ _ _ _ ih | store _ _ _ ih | print _ _ _ ih | input _ _ _ ih => exact ih
  | read a _ ih => exact (State.memRead_pc _ a).trans ih

/-- Every TRAP may write the return address. -/
theorem r7_mem_writes_of_isTrap (h : isTrap i = true) : .r7 ∈ writes i := by
  cases i with
  | trap x v => simp only [writes]; split <;> exact .head _
  | getc | out | puts | inChar | putsp | halt => exact .head _
  | _ => cases h

theorem Updates.sameRegsBut (h : Updates i s u) : SameRegsBut (writes i) s u := by
  intro r hr
  have hne : ∀ r' ∈ writes i, r ≠ r' := fun r' hr' heq => hr (heq ▸ hr')
  induction h with
  | start => rfl
  | entry htrap => exact (s.reg_trapEntry r).trans (if_neg (hne _ (r7_mem_writes_of_isTrap htrap)))
  | jump _ _ _ ih | store _ _ _ ih | print _ _ _ ih | input _ _ _ ih => exact ih
  | link hr7 _ ih => exact (State.reg_setReg _ _ _ _).trans ((if_neg (hne _ hr7)).trans ih)
  | result _ hr' _ _ ih => exact (State.reg_setResult _ _ _ _).trans ((if_neg (hne _ hr')).trans ih)
  | read a _ ih => exact (State.memRead_reg _ a r).trans ih

/-- A routine writes R0 at most, so the return address of the entry stays in R7. -/
theorem Updates.reg_r7_of_isTrap (h : Updates i s u) (htrap : isTrap i = true) : u.reg .r7 = s.pc := by
  induction h with
  | start hno => cases htrap.symm.trans hno
  | entry => exact (s.reg_trapEntry .r7).trans (if_pos rfl)
  | jump _ _ _ ih | store _ _ _ ih | print _ _ _ ih | input _ _ _ ih => exact ih
  | link => exact (State.reg_setReg _ _ _ _).trans (if_pos rfl)
  | result _ _ hr0 _ ih =>
    obtain hno | rfl := hr0
    · cases htrap.symm.trans hno
    · exact (State.reg_setResult _ _ _ _).trans ih
  | read a _ ih => exact (State.memRead_reg _ a .r7).trans ih

/-- At most one flag is set. -/
def NZP.AtMostOne (f : NZP) : Prop := f = ⟨false, false, false⟩ ∨ f.ExactlyOne

theorem Updates.nzp_atMostOne (h : Updates i s u) (hs : s.nzp.AtMostOne) : u.nzp.AtMostOne := by
  induction h with
  | start | entry => exact hs
  | jump _ _ _ ih | link _ _ ih | store _ _ _ ih | print _ _ _ ih | input _ _ _ ih => exact ih
  | result v => exact .inr (flagsOf_exactlyOne v)
  | @read u a _ ih => exact (u.memRead_nzp a).symm ▸ ih

theorem Updates.wf (h : Updates i s u) (hm : s.mem.wf) : u.mem.wf := by
  induction h with
  | start | entry => exact hm
  | jump _ _ _ ih | link _ _ ih | result _ _ _ _ ih | print _ _ _ ih | input _ _ _ ih => exact ih
  | store _ _ _ ih => exact Memory.wf_write ih _ _
  | read a _ ih => exact State.memRead_wf ih a

theorem Updates.cell_plain (h : Updates i s u) (hm : s.mem.wf) {a : Word} (ha : Plain a) (hstore : storeAddress i s ≠ some a) :
    u.cell a = s.cell a := by
  induction h with
  | start | entry => rfl
  | jump _ _ _ ih | link _ _ ih | result _ _ _ _ ih | print _ _ _ ih | input _ _ _ ih => exact ih
  | store _ haddr hu ih =>
    exact (State.cell_setCell (hu.wf hm) _ _ _).trans ((if_neg fun heq => hstore (haddr.trans (congrArg some heq.symm))).trans ih)
  | read a hu ih => exact (State.memRead_cell_plain (hu.wf hm) a ha).trans ih

theorem Updates.out_prefix (h : Updates i s u) : s.out <+: u.out := by
  induction h with
  | start | entry => exact List.prefix_rfl
  | jump _ _ _ ih | link _ _ ih | result _ _ _ _ ih | store _ _ _ ih | input _ _ _ ih => exact ih
  | print _ _ _ ih => exact ih.trans (List.prefix_append _ _)
  | @read u a _ ih => exact (u.memRead_out a).symm ▸ ih

theorem Updates.sameConsole (h : Updates i s u) (hno : isTrap i = false) : SameConsole s u := by
  induction h with
  | start => exact ⟨rfl, rfl⟩
  | entry htrap | print _ htrap | input _ htrap => cases hno.symm.trans htrap
  | jump _ _ _ ih | link _ _ ih | result _ _ _ _ ih | store _ _ _ ih => exact ih
  | @read u a _ ih =>
    obtain ⟨hout, hin⟩ := ih
    exact ⟨(u.memRead_out a).trans hout, (u.memRead_input a).trans hin⟩

/-! ### The statements -/

/-- Settles O38: of the updates only a store and a read's side effects write memory. -/
theorem plainCellsChangeOnlyByStores : Obligations.PlainCellsChangeOnlyByStores := by
  unfold Obligations.PlainCellsChangeOnlyByStores
  intro i s t hm h a ha hstore
  obtain ⟨u, r, e, hu, rfl⟩ := (does_of_exec_next h).exists_updates
  exact hu.cell_plain hm ha hstore

/-- Settles O55: of the updates only the routines' print and input touch the console. -/
theorem outputOnlyGrows : Obligations.OutputOnlyGrows := by
  unfold Obligations.OutputOnlyGrows
  intro i s t h
  obtain ⟨u, r, e, hu, rfl⟩ := (does_of_exec_next h).exists_updates
  exact ⟨hu.out_prefix, hu.sameConsole⟩

/-- Settles O26: of the updates only a link, a result and the entry of a TRAP write registers. -/
theorem registersWrittenByTable : Obligations.RegistersWrittenByTable := by
  unfold Obligations.RegistersWrittenByTable
  refine ⟨bitsOfReg_regOfBits, regOfBits_bitsOfReg, fun i s t h => ?_⟩
  obtain ⟨u, r, e, hu, rfl⟩ := (does_of_exec_next h).exists_updates
  exact ⟨hu.sameRegsBut, hu.reg_r7_of_isTrap⟩

theorem exec_jsrr (base : Reg) (s : State) :
    exec (.jsrr base) s = .next ((s.setReg .r7 s.pc).setPc (if base = .r7 then s.pc else s.reg base)) := by
  rw [← s.reg_setReg .r7 base s.pc]
  rfl

/-- Settles O24: the base is read from the linked state, so base R7 gives the return address. -/
theorem callThroughRegister : Obligations.CallThroughRegister := by
  unfold Obligations.CallThroughRegister
  exact fun base s => ⟨decode_jsrr_word base, _, exec_jsrr base s, s.setReg_setPc_wentTo _⟩

/-- Settles O25: of the updates only a jump writes the PC, and the five transfers say to where. -/
theorem onlyTransfersWriteThePc : Obligations.OnlyTransfersWriteThePc := by
  unfold Obligations.OnlyTransfersWriteThePc
  intro i s t h
  refine ⟨fun htransfers => ?_, ?_, ?_, ?_, ?_, ?_⟩
  · obtain ⟨u, r, e, hu, rfl⟩ := (does_of_exec_next h).exists_updates
    exact hu.pc htransfers
  · rintro n z p off9 rfl
    by_cases htest : branchTest n z p s.nzp = true
    · exact .inr (Host.Outcome.next.inj ((exec_br_taken off9 htest).symm.trans h) ▸ rfl)
    · exact .inl (Host.Outcome.next.inj ((exec_br_not_taken off9 htest).symm.trans h) ▸ rfl)
  · rintro base rfl
    exact Host.Outcome.next.inj h ▸ rfl
  · rintro rfl
    exact Host.Outcome.next.inj h ▸ rfl
  · rintro off11 rfl
    exact Host.Outcome.next.inj ((exec_jsr off11 s).symm.trans h) ▸ rfl
  · rintro base rfl
    exact Host.Outcome.next.inj h ▸ rfl

end Sys2Proof.Machine
end

section
/-! The draws of KeyPoll an instruction uses up, and what sets the availability bit (20_memory.md R66 to R68). -/

namespace Sys2Proof.Machine

/-! ### Polls by number -/

/-- The draws of `t` are those after so many polls from `s`. -/
def PolledFrom (s t : State) (n : Nat) : Prop := t.keys = keysAfterPolls s n

theorem PolledFrom.nextKey {s t : State} {n : Nat} (h : PolledFrom s t n) : t.nextKey = keyAtPoll s n :=
  congrArg (fun d => (d.next Config.keyAnswer).1) h

theorem PolledFrom.keysAfter {s t : State} {n : Nat} (h : PolledFrom s t n) : t.keysAfter = keysAfterPolls s (n + 1) :=
  congrArg (fun d => (d.next Config.keyAnswer).2) h

/-- A read makes one poll or none. -/
theorem PolledFrom.memRead {s t : State} {n : Nat} (h : PolledFrom s t n) (a : Word) :
    PolledFrom s (t.memRead a).2 (if a = kbsr then n + 1 else n) := by
  unfold PolledFrom
  rw [State.memRead_keys]
  split
  · exact h.keysAfter
  · exact h

/-! ### The two device cells after a read -/

theorem kbsr_ne_kbdr : kbsr ≠ kbdr := by decide

/-- A poll that finds a key (R66). -/
theorem State.poll_cell_of_key {s : State} (hm : s.mem.wf) {k : Word} (hk : s.nextKey = some k) (b : Word) :
    s.poll.cell b = if b = kbsr then 0x8000#16 else if b = kbdr then k else s.cell b := by
  have hpoll : s.poll = (({ s with keys := s.keysAfter } : State).setCell kbsr 0x8000#16).setCell kbdr k := by
    obtain ⟨hnone, -⟩ | ⟨k', hk', h⟩ := s.poll_cases
    · cases hk.symm.trans hnone
    · cases hk.symm.trans hk'
      exact h
  rw [hpoll, State.cell_setCell (Memory.wf_write hm _ _),
    State.cell_setCell (s := { s with keys := s.keysAfter }) hm]
  by_cases hb : b = kbsr
  · rw [if_neg (hb ▸ kbsr_ne_kbdr), if_pos hb, if_pos hb]
  · rw [if_neg hb, if_neg hb]
    rfl

/-- A poll that finds no key uses up the draw and changes nothing else (R66). -/
theorem State.poll_of_no_key {s : State} (hk : s.nextKey = none) : s.poll = { s with keys := s.keysAfter } := by
  obtain ⟨-, h⟩ | ⟨k, hsome, -⟩ := s.poll_cases
  · exact h
  · cases hk.symm.trans hsome

theorem State.clearAvailable_cell {s : State} (hm : s.mem.wf) (b : Word) :
    s.clearAvailable.cell b = if b = kbsr then s.cell kbsr &&& 0x7FFF#16 else s.cell b :=
  State.cell_setCell hm _ _ _

theorem getLsbD_clear_bit15 (w : Word) (j : Nat) : (w &&& 0x7FFF#16).getLsbD j = (decide (j ≠ 15) && w.getLsbD j) := by
  have hmask : ∀ j, j < 16 → (0x7FFF#16).getLsbD j = decide (j ≠ 15) := by decide
  rw [BitVec.getLsbD_and, Bool.and_comm]
  by_cases hj : j < 16
  · rw [hmask j hj]
  · rw [BitVec.getLsbD_of_ge w j (Nat.le_of_not_lt hj), Bool.and_false, Bool.and_false]

/-- Availability is as before, or has been cleared, or one of the polls made found a key. -/
def KeyOrUnset (s u : State) : Prop :=
  ∃ m, PolledFrom s u m ∧ ((u.cell kbsr).getLsbD 15 = false ∨ ∃ n k, n < m ∧ keyAtPoll s n = some k)

theorem KeyOrUnset.memRead {s u : State} (hm : u.mem.wf) (h : KeyOrUnset s u) (a : Word) : KeyOrUnset s (u.memRead a).2 := by
  obtain ⟨m, hpolls, hkey⟩ := h
  refine ⟨_, hpolls.memRead a, ?_⟩
  obtain ⟨rfl, hread⟩ | ⟨rfl, hread⟩ | ⟨ha, hread⟩ := u.memRead_cases a
  · rw [if_pos rfl, hread]
    cases hnext : u.nextKey with
    | some k => exact .inr ⟨m, k, Nat.lt_succ_self m, hpolls.nextKey.symm.trans hnext⟩
    | none =>
      obtain hunset | ⟨n, k, hn, hk⟩ := hkey
      · exact .inl ((congrArg (fun t => (t.cell kbsr).getLsbD 15) (State.poll_of_no_key hnext)).trans hunset)
      · exact .inr ⟨n, k, Nat.lt_succ_of_lt hn, hk⟩
  · rw [hread]
    exact .inl (by rw [State.clearAvailable_cell hm, if_pos rfl, getLsbD_clear_bit15]; rfl)
  · rw [if_neg ha.1, hread]
    exact hkey

theorem Updates.keyOrUnset {i : Instr} {s u : State} (h : Updates i s u) (hm : s.mem.wf)
    (hstore : storeAddress i s ≠ some kbsr) (hunset : (s.cell kbsr).getLsbD 15 = false) : KeyOrUnset s u := by
  induction h with
  | start | entry => exact ⟨0, rfl, .inl hunset⟩
  | jump _ _ _ ih | link _ _ ih | result _ _ _ _ ih | print _ _ _ ih | input _ _ _ ih => exact ih
  | @store u a v haddr hu ih =>
    have hcell : (u.memWrite a v).cell kbsr = u.cell kbsr :=
      (State.cell_setCell (hu.wf hm) a v kbsr).trans (if_neg fun heq => hstore (haddr.trans (congrArg some heq.symm)))
    unfold KeyOrUnset
    rw [hcell]
    exact ih
  | read a hu ih => exact ih.memRead (hu.wf hm) a

/-! ### The statements -/

/-- Settles O28: the poll's two cases, and the two cases of a draw. -/
theorem statusReadPolls : Obligations.StatusReadPolls := by
  unfold Obligations.StatusReadPolls
  refine fun s hm => ⟨fun k hk => ⟨?_, s.poll_keys, State.poll_cell_of_key hm hk⟩, fun hk => ?_, fun a ks hknown => ?_,
    fun hknown => ?_⟩
  · exact State.poll_cell_of_key hm hk kbsr
  · exact (s.memRead_kbsr).trans (by rw [State.poll_of_no_key hk]; rfl)
  · simp [State.nextKey, State.keysAfter, Draws.next, hknown]
  · simp [State.nextKey, State.keysAfter, Draws.next, hknown]

/-- Settles O29: the one cell written is the status register's, masked. -/
theorem dataReadClearsAvailability : Obligations.DataReadClearsAvailability := by
  unfold Obligations.DataReadClearsAvailability
  refine fun s hm => ⟨rfl, rfl, fun b hb => (State.clearAvailable_cell hm b).trans (if_neg hb), fun j => ?_⟩
  rw [← getLsbD_clear_bit15]
  exact congrArg (·.getLsbD j) (State.clearAvailable_cell hm kbsr)

/-- Settles O39: each update leaves availability unset, or is a read whose poll found a key. -/
theorem onlyAKeySetsAvailability : Obligations.OnlyAKeySetsAvailability := by
  unfold Obligations.OnlyAKeySetsAvailability
  intro i s t hm h hstore hunset hset
  obtain ⟨u, r, e, hu, rfl⟩ := (does_of_exec_next h).exists_updates
  obtain ⟨m, hpolls, hno | ⟨n, k, hn, hk⟩⟩ := hu.keyOrUnset hm hstore hunset
  · cases hset.symm.trans hno
  · exact ⟨n, m, k, hn, hk, hpolls⟩

end Sys2Proof.Machine
end

section
/-! The keyboard protocol (20_memory.md, The keyboard device as a whole): status reads after a key, and the data read that ends them. -/

namespace Sys2Proof.Machine

/-- `k` is what the last of the polls 0 to `n` that found a key found. -/
def LastKeyBy (s : State) (n : Nat) (k : Word) : Prop :=
  ∃ m ≤ n, keyAtPoll s m = some k ∧ ∀ j, m < j → j ≤ n → keyAtPoll s j = none

theorem LastKeyBy.of_key {s : State} {n : Nat} {k : Word} (h : keyAtPoll s n = some k) : LastKeyBy s n k :=
  ⟨n, Nat.le_refl n, h, fun _ hlt hle => absurd hlt (Nat.not_lt.2 hle)⟩

theorem LastKeyBy.succ {s : State} {n : Nat} {k : Word} (h : LastKeyBy s n k) (hnone : keyAtPoll s (n + 1) = none) :
    LastKeyBy s (n + 1) k := by
  obtain ⟨m, hm, hk, hlast⟩ := h
  refine ⟨m, Nat.le_succ_of_le hm, hk, fun j hlt hle => ?_⟩
  obtain hj | rfl := Nat.le_succ_iff.1 hle
  · exact hlast j hlt hj
  · exact hnone

/-- The device holds an unread key: the status Word and the code of the last key found, after `n + 1` polls. -/
def KeyWaits (s : State) (n : Nat) (t : State) : Prop :=
  t.mem.wf ∧ PolledFrom s t (n + 1) ∧ t.cell kbsr = 0x8000#16 ∧ LastKeyBy s n (t.cell kbdr)

/-- A poll that finds a key, from any state of the device. -/
theorem keyWaits_poll_of_key {s t : State} {n : Nat} {k : Word} (hm : t.mem.wf) (hpolls : PolledFrom s t n)
    (hk : t.nextKey = some k) : KeyWaits s n t.poll := by
  have hcell := State.poll_cell_of_key hm hk
  have hcode : t.poll.cell kbdr = k := hcell kbdr
  exact ⟨State.poll_wf hm, t.poll_keys.trans hpolls.keysAfter, hcell kbsr,
    hcode.symm ▸ .of_key (hpolls.nextKey.symm.trans hk)⟩

/-- A further poll keeps the key waiting, whatever it finds. -/
theorem KeyWaits.poll {s t : State} {n : Nat} (h : KeyWaits s n t) : KeyWaits s (n + 1) t.poll := by
  obtain ⟨hm, hpolls, hstatus, hlast⟩ := h
  cases hk : t.nextKey with
  | some k => exact keyWaits_poll_of_key hm hpolls hk
  | none =>
    rw [State.poll_of_no_key hk]
    exact ⟨hm, hpolls.keysAfter, hstatus, hlast.succ (hpolls.nextKey.symm.trans hk)⟩

theorem keyWaits_afterStatusReads {s : State} {k : Word} (hm : s.mem.wf) (hk : s.nextKey = some k) (n : Nat) :
    KeyWaits s n (afterStatusReads s (n + 1)) := by
  induction n with
  | zero => exact keyWaits_poll_of_key hm rfl hk
  | succ n ih => exact ih.poll

/-- The data read delivers the code; with no new key the status then reads as clear, and the code stays. -/
theorem KeyWaits.status_after_data_read {s t : State} {n : Nat} (h : KeyWaits s n t) (hnone : keyAtPoll s (n + 1) = none) :
    t.clearAvailable.memRead kbsr = (0x0000#16, { t.clearAvailable with keys := t.keysAfter }) := by
  obtain ⟨hm, hpolls, hstatus, -⟩ := h
  have hnext : t.clearAvailable.nextKey = none := hpolls.nextKey.trans hnone
  have hclear : t.clearAvailable.cell kbsr = 0x0000#16 := by
    rw [State.clearAvailable_cell hm, if_pos rfl, hstatus]
    decide
  rw [State.memRead_kbsr, State.poll_of_no_key hnext, ← hclear]
  rfl

/-- Settles O30: every poll after the key keeps it waiting, and the data read takes the code and clears the bit. -/
theorem statusSetUntilDataRead : Obligations.StatusSetUntilDataRead := by
  unfold Obligations.StatusSetUntilDataRead
  intro s k hm hk n
  have hwaits := keyWaits_afterStatusReads hm hk n
  have ⟨hm', _, hstatus, hlast⟩ := hwaits
  refine ⟨hstatus, hlast, fun hnone => ?_⟩
  have hread := hwaits.status_after_data_read hnone
  refine ⟨congrArg Prod.fst hread, ?_⟩
  exact (congrArg (fun r => (r.2.memRead kbdr).1) hread).trans (State.clearAvailable_cell hm' kbdr)

end Sys2Proof.Machine
end

section
/-! The step (40_fetch_cycle.md R120 to R126): what it can do from RUNNING, and the invariant it keeps. -/

namespace Sys2Proof.Machine

/-! ### The cases of a step -/

theorem step_of_stopReq {s : State} (hrun : s.run = .running) (hstop : s.stopReq = true) : step s = .next s.stopRun := by
  rw [step, if_pos hrun, if_pos hstop]

theorem step_of_not_stopReq {s : State} (hrun : s.run = .running) (hstop : s.stopReq = false) :
    step s = exec (decode s.fetch.1) s.fetch.2 := by
  rw [step, if_pos hrun, hstop]
  rfl

theorem step_of_plain_pc {s : State} (hrun : s.run = .running) (hstop : s.stopReq = false) (hplain : Plain s.pc) :
    step s = exec (decode (s.cell s.pc)) { s with pc := s.pc + 1#16 } := by
  rw [step_of_not_stopReq hrun hstop, s.fetch_plain hplain]
  rfl

/-- A step with a next state is one from RUNNING, and is the stop or the fetched instruction. -/
theorem step_next_cases {s t : State} (h : step s = .next t) :
    s.run = .running ∧ (t = s.stopRun ∨ exec (decode s.fetch.1) s.fetch.2 = .next t) := by
  by_cases hrun : s.run = .running
  · refine ⟨hrun, ?_⟩
    cases hstop : s.stopReq with
    | true => exact .inl (Host.Outcome.next.inj ((step_of_stopReq hrun hstop).symm.trans h)).symm
    | false => exact .inr ((step_of_not_stopReq hrun hstop).symm.trans h)
  · cases (step_of_run_ne_running hrun).symm.trans h

/-! ### The invariant -/

theorem State.Inv.err_eq_none {s : State} (hs : s.Inv) (hrun : s.run = .running) : s.err = none := by
  obtain ⟨-, -, herr⟩ := hs
  rw [hrun] at herr
  exact Option.not_isSome_iff_eq_none.1 fun h => nomatch herr.2 h

theorem State.Inv.fetch {s : State} (hs : s.Inv) : s.fetch.2.Inv := by
  obtain ⟨hm, hnzp, herr⟩ := hs
  refine ⟨State.memRead_wf hm s.pc, ?_, ?_⟩
  · exact (s.memRead_nzp s.pc).symm ▸ hnzp
  · simpa [State.fetch] using herr

theorem State.fetch_run (s : State) : s.fetch.2.run = s.run := s.memRead_run s.pc

/-- An instruction ends the run in ERROR exactly where it writes the record. -/
theorem State.Inv.exec {i : Instr} {s t : State} (hs : s.Inv) (hrun : s.run = .running) (h : exec i s = .next t) : t.Inv := by
  have hnone := hs.err_eq_none hrun
  obtain ⟨hm, hnzp, -⟩ := hs
  obtain ⟨u, hu, hend⟩ := does_of_exec_next h
  obtain ⟨hurun, huerr, -⟩ := hu.sameControl
  rw [hrun] at hurun
  rw [hnone] at huerr
  cases hend with
  | goesOn => exact ⟨hu.wf hm, hu.nzp_atMostOne hnzp, by simp [hurun, huerr]⟩
  | halts => exact ⟨hu.wf hm, hu.nzp_atMostOne hnzp, by simp [huerr]⟩
  | fails kind word => exact ⟨hu.wf hm, hu.nzp_atMostOne hnzp, by simp⟩

theorem State.Inv.stopRun {s : State} (hs : s.Inv) (hrun : s.run = .running) : s.stopRun.Inv := by
  have hnone := hs.err_eq_none hrun
  obtain ⟨hm, hnzp, -⟩ := hs
  exact ⟨hm, hnzp, by simp [hnone]⟩

theorem State.Inv.step {s t : State} (hs : s.Inv) (h : step s = .next t) : t.Inv := by
  obtain ⟨hrun, rfl | hexec⟩ := step_next_cases h
  · exact hs.stopRun hrun
  · exact hs.fetch.exec (s.fetch_run.trans hrun) hexec

theorem State.Inv.reaches {s t : State} (hs : s.Inv) (h : Reaches s t) : t.Inv := by
  induction h with
  | refl => exact hs
  | step _ hu ih => exact ih.step hu
  | stop _ ih => exact ih

theorem State.reset_inv : State.reset.Inv := ⟨rfl, .inl rfl, by decide⟩

/-! ### What completes -/

theorem exec_completes {i : Instr} (s : State) (h : mayNotEnd i = false) : ∃ t, exec i s = .next t := by
  cases i with
  | trap x v =>
    have hcode := of_decide_eq_false h
    obtain ⟨rfl, -⟩ | ⟨-, hrun⟩ | ⟨rfl, -⟩ | ⟨rfl, -⟩ | ⟨rfl, -⟩ | ⟨-, hrun⟩ | ⟨-, hrun⟩ := execTrap_cases x v s
    · exact absurd (.inl rfl) hcode
    · exact ⟨_, hrun⟩
    · exact absurd (.inr (.inl rfl)) hcode
    · exact absurd (.inr (.inr (.inl rfl))) hcode
    · exact absurd (.inr (.inr (.inr rfl))) hcode
    · exact ⟨_, hrun⟩
    · exact ⟨_, hrun⟩
  | getc | inChar | puts | putsp => cases h
  | _ => exact ⟨_, rfl⟩

/-- The outcomes that are no refusal. -/
def EndsOrWaits (o : Host.Outcome State Fault Refusal) : Prop :=
  (∃ t, o = .next t) ∨ (∃ out, o = .fault (.waitsForInput out)) ∨ o = .fault .neverEnds

theorem execGetc_endsOrWaits (s : State) : EndsOrWaits (execGetc s) := by
  obtain ⟨c, -, h⟩ | ⟨-, h⟩ := routineGetc_cases s.trapEntry
  · exact .inl ⟨_, h⟩
  · exact .inr (.inl ⟨_, h⟩)

theorem execIn_endsOrWaits (s : State) : EndsOrWaits (execIn s) := by
  obtain ⟨c, -, h⟩ | ⟨-, h⟩ := routineIn_cases Config.inPrompt s.trapEntry
  · exact .inl ⟨_, h⟩
  · exact .inr (.inl ⟨_, h⟩)

theorem routineScan_endsOrWaits (unpack : Word → List Byte × Bool) (s : State) : EndsOrWaits (routineScan unpack s) := by
  obtain ⟨t, -, -, h⟩ | ⟨-, h⟩ := routineScan_cases (unpack := unpack) s
  · exact .inl ⟨t, h⟩
  · exact .inr (.inr h)

theorem execTrap_endsOrWaits (x : BitVec 4) (v : BitVec 8) (s : State) : EndsOrWaits (execTrap x v s) := by
  obtain ⟨-, h⟩ | ⟨-, h⟩ | ⟨-, h⟩ | ⟨-, h⟩ | ⟨-, h⟩ | ⟨-, h⟩ | ⟨-, h⟩ := execTrap_cases x v s <;> rw [h]
  · exact execGetc_endsOrWaits s
  · exact .inl ⟨_, rfl⟩
  · exact routineScan_endsOrWaits _ _
  · exact execIn_endsOrWaits s
  · exact routineScan_endsOrWaits _ _
  · exact .inl ⟨_, rfl⟩
  · exact .inl ⟨_, rfl⟩

theorem exec_endsOrWaits (i : Instr) (s : State) : EndsOrWaits (exec i s) := by
  cases i with
  | getc => exact execGetc_endsOrWaits s
  | inChar => exact execIn_endsOrWaits s
  | puts | putsp => exact routineScan_endsOrWaits _ _
  | trap x v => exact execTrap_endsOrWaits x v s
  | _ => exact .inl (exec_completes s rfl)

/-! ### The statements -/

/-- Settles O52: the stop keeps the invariant, and the fetch and the instruction keep it too. -/
theorem stepKeepsTheInvariant : Obligations.StepKeepsTheInvariant := by
  unfold Obligations.StepKeepsTheInvariant
  exact fun _ _ hs h => hs.step h

/-- Settles O53: reset has empty memory, no flag and no record. -/
theorem resetMeetsTheInvariant : Obligations.ResetMeetsTheInvariant := by
  unfold Obligations.ResetMeetsTheInvariant
  exact State.reset_inv

/-- Settles O9: a run that has ended has no step, so only the stop requests are left. -/
theorem endedRunNeverChanges : Obligations.EndedRunNeverChanges := by
  unfold Obligations.EndedRunNeverChanges
  intro s t hended h
  induction h with
  | refl => rfl
  | @step t u _ hu ih =>
    have hrun : t.run ≠ .running := (congrArg State.run ih).trans_ne hended
    cases (step_of_run_ne_running hrun).symm.trans hu
  | stop _ ih => exact (congrArg State.requestStop ih :)

/-- Settles O11: a TRAP goes by its code, and every other instruction's meaning is a next state. -/
theorem otherInstructionsAlwaysComplete : Obligations.OtherInstructionsAlwaysComplete := by
  unfold Obligations.OtherInstructionsAlwaysComplete
  exact fun _ s h => exec_completes s h

/-- Settles O10: the stop has a next state, and each instruction ends, waits or scans for ever. -/
theorem stepFromRunning : Obligations.StepFromRunning := by
  unfold Obligations.StepFromRunning
  intro s hrun
  cases hstop : s.stopReq with
  | true => exact .inl ⟨_, step_of_stopReq hrun hstop⟩
  | false =>
    rw [step_of_not_stopReq hrun hstop]
    exact exec_endsOrWaits _ _

/-- Settles O7: the request is looked at before the fetch, and none of an instruction's updates writes it. -/
theorem stopRequestEndsTheRun : Obligations.StopRequestEndsTheRun := by
  unfold Obligations.StopRequestEndsTheRun
  refine ⟨fun s hrun hstop => step_of_stopReq hrun hstop, fun i s t h => ?_, fun s => rfl⟩
  obtain ⟨u, r, e, hu, rfl⟩ := (does_of_exec_next h).exists_updates
  obtain ⟨-, -, hstop⟩ := hu.sameControl
  exact hstop

/-- Settles O5: the fetch is the side-effecting read, and at a plain address that read changes nothing. -/
theorem stepRunsTheDecodedInstruction : Obligations.StepRunsTheDecodedInstruction := by
  unfold Obligations.StepRunsTheDecodedInstruction
  exact fun s hrun hstop => ⟨step_of_not_stopReq hrun hstop, step_of_plain_pc hrun hstop⟩

/-- Settles O6: the placed Word is in the cell at the PC, which the next fetch reads. -/
theorem placedWordIsRunNext : Obligations.PlacedWordIsRunNext := by
  unfold Obligations.PlacedWordIsRunNext
  intro s w hm hrun hstop hplain
  have hplaced : s.withFetchWord 16 w.toNat = s.setCell s.pc w := by
    rw [State.withFetchWord, Nat.mod_eq_of_lt w.isLt, BitVec.ofNat_toNat, BitVec.setWidth_eq]
    rfl
  have hcell := State.cell_setCell hm s.pc w
  have hword : (s.setCell s.pc w).cell s.pc = w := (hcell s.pc).trans (if_pos rfl)
  have hstep := step_of_plain_pc (s := s.setCell s.pc w) hrun hstop hplain
  rw [State.setCell_pc, hword] at hstep
  rw [hplaced]
  exact ⟨hstep, hcell⟩

end Sys2Proof.Machine
end

section
/-! The routines (44_trap.md F7): each runs from the entry, which links R7, and goes on at the post-increment PC. -/

namespace Sys2Proof.Machine

/-! ### Frames -/

theorem State.trapEntry_sameRegsBut (s : State) : SameRegsBut [.r7] s s.trapEntry := s.setReg_sameRegsBut .r7 s.pc

theorem State.trapEntry_sameMemory (s : State) : SameMemory s s.trapEntry := ⟨s.trapEntry_cell, rfl⟩

theorem lowByte_eq_setWidth (w : Word) : lowByte w = w.setWidth 8 := (BitVec.setWidth_eq_extractLsb' (by decide)).symm

/-- `t` is `s` after a routine that reads the Word `c` and leaves the output at `out` (R214, R217). -/
def Delivers (c : Word) (out : List Byte) (s t : State) : Prop :=
  t.reg .r0 = c ∧ t.reg .r7 = s.pc ∧ SameRegsBut [.r0, .r7] s t ∧ t.nzp = signedFlags c ∧ t.input = s.inputAfter ∧ t.out = out ∧
    t.pc = s.pc ∧ SameMemory s t ∧ SameControl s t

/-- The state GETC and IN leave: entered, one draw used up, the bytes written, the result in R0. -/
def State.delivered (s : State) (c : Word) (bs : List Byte) : State :=
  (({ s.trapEntry with input := s.inputAfter } : State).consoleWrite bs).setResult .r0 c

theorem State.delivered_delivers (s : State) (c : Word) {bs out : List Byte} (hout : s.out ++ bs = out) :
    Delivers c out s (s.delivered c bs) := by
  refine ⟨rfl, rfl, fun r hr => ?_, flagsOf_eq_signedFlags c, rfl, hout, rfl, s.trapEntry_sameMemory, ⟨rfl, rfl, rfl⟩⟩
  obtain ⟨hr0, hr7⟩ : r ≠ .r0 ∧ r ≠ .r7 := by simpa using hr
  exact (RegFile.get_set_ne _ hr0 c).trans (s.trapEntry_sameRegsBut r (by simpa using hr7))

/-- `t` is `s` after a routine that only leaves the output at `out` (R215, R216, R218). -/
def Prints (out : List Byte) (s t : State) : Prop :=
  t.out = out ∧ t.reg .r7 = s.pc ∧ SameRegsBut [.r7] s t ∧ t.nzp = s.nzp ∧ t.pc = s.pc ∧ t.input = s.input ∧ SameMemory s t ∧
    SameControl s t

theorem State.trapEntry_consoleWrite_prints (s : State) {bs out : List Byte} (hout : s.out ++ bs = out) :
    Prints out s (s.trapEntry.consoleWrite bs) :=
  ⟨hout, rfl, s.trapEntry_sameRegsBut, rfl, rfl, rfl, s.trapEntry_sameMemory, ⟨rfl, rfl, rfl⟩⟩

/-! ### What each routine does -/

theorem exec_getc_of_input {s : State} {c : Word} (h : s.nextInput = some c) : exec .getc s = .next (s.delivered c []) := by
  obtain ⟨c', hc', hrun⟩ | ⟨hnone, -⟩ := routineGetc_cases s.trapEntry
  · cases h.symm.trans hc'
    rw [State.delivered, State.consoleWrite, List.append_nil]
    exact hrun
  · cases h.symm.trans hnone

theorem exec_getc_of_no_input {s : State} (h : s.nextInput = none) : exec .getc s = .fault (.waitsForInput s.out) := by
  obtain ⟨c, hc, -⟩ | ⟨-, hwait⟩ := routineGetc_cases s.trapEntry
  · cases h.symm.trans hc
  · exact hwait

theorem exec_inChar_of_input {s : State} {c : Word} (h : s.nextInput = some c) :
    exec .inChar s = .next (s.delivered c (Config.inPrompt ++ [lowByte c])) := by
  obtain ⟨c', hc', hrun⟩ | ⟨hnone, -⟩ := routineIn_cases Config.inPrompt s.trapEntry
  · cases h.symm.trans hc'
    rw [State.delivered, State.consoleWrite, ← List.append_assoc]
    exact hrun
  · cases h.symm.trans hnone

theorem exec_inChar_of_no_input {s : State} (h : s.nextInput = none) :
    exec .inChar s = .fault (.waitsForInput (s.out ++ Config.inPrompt)) := by
  obtain ⟨c, hc, -⟩ | ⟨-, hwait⟩ := routineIn_cases Config.inPrompt s.trapEntry
  · cases h.symm.trans hc
  · exact hwait

theorem exec_out (s : State) : exec .out s = .next (s.trapEntry.consoleWrite [lowByte (s.reg .r0)]) := rfl

theorem exec_halt (s : State) : exec .halt s = .next (s.trapEntry.consoleWrite Config.haltMessage).haltRun := rfl

theorem exec_trap_illegal (x : BitVec 4) {v : BitVec 8} (s : State) (h : v ∉ trapTable) :
    exec (.trap x v) s = .next (s.trapEntry.raiseFatal .illegalTrap (0xF#4 ++ (x ++ v))) := execTrap_illegal x s h

/-! ### The statements -/

/-- Settles O40: the code decodes to GETC whatever bits 11:8 are, and the answered read is delivered with nothing written. -/
theorem getcDeliversOneWord : Obligations.GetcDeliversOneWord := by
  unfold Obligations.GetcDeliversOneWord
  exact fun s c h => ⟨fun x => decode_opcode_trap_word x 0x20#8, _, exec_getc_of_input h,
    s.delivered_delivers c (List.append_nil s.out)⟩

/-- Settles O41: the answered read is delivered after the prompt, with its low byte as the echo. -/
theorem inPromptsAndEchoes : Obligations.InPromptsAndEchoes := by
  unfold Obligations.InPromptsAndEchoes
  refine fun s c h => ⟨_, exec_inChar_of_input h, s.delivered_delivers c ?_⟩
  rw [← List.append_assoc, lowByte_eq_setWidth]

/-- Settles O42: the draw decides, for both routines. -/
theorem consoleReadsWaitForInput : Obligations.ConsoleReadsWaitForInput := by
  unfold Obligations.ConsoleReadsWaitForInput
  refine fun s => ⟨fun h => ⟨exec_getc_of_no_input h, exec_inChar_of_no_input h⟩, fun h => ?_⟩
  obtain ⟨c, hc⟩ := Option.ne_none_iff_exists'.1 h
  exact ⟨⟨_, exec_getc_of_input hc⟩, _, exec_inChar_of_input hc⟩

/-- Settles O43: the one write is the low byte of R0, which the entry has not touched. -/
theorem outWritesTheLowByte : Obligations.OutWritesTheLowByte := by
  unfold Obligations.OutWritesTheLowByte
  refine fun s => ⟨fun x => decode_opcode_trap_word x 0x21#8, _, exec_out s, s.trapEntry_consoleWrite_prints ?_⟩
  rw [lowByte_eq_setWidth]

/-- Settles O48: the message is written after the entry, and then the run state. -/
theorem haltEndsTheRun : Obligations.HaltEndsTheRun := by
  unfold Obligations.HaltEndsTheRun
  exact fun s => ⟨_, exec_halt s, rfl, rfl, rfl, s.trapEntry_sameRegsBut, rfl, rfl, rfl, rfl, rfl, s.trapEntry_sameMemory⟩

/-- Settles O50: after the entry a code outside the table only raises the error, whose record is the encoded word. -/
theorem illegalTrapEndsTheRun : Obligations.IllegalTrapEndsTheRun := by
  unfold Obligations.IllegalTrapEndsTheRun
  exact fun x v s h => ⟨_, exec_trap_illegal x s h, rfl, rfl, rfl, s.trapEntry_sameRegsBut, rfl, rfl, rfl, s.trapEntry_sameMemory,
    rfl, rfl⟩

/-- Settles O51: the meaning of both opcodes is the raised error, whose record is the encoded word. -/
theorem illegalOpcodeEndsTheRun : Obligations.IllegalOpcodeEndsTheRun := by
  unfold Obligations.IllegalOpcodeEndsTheRun
  exact fun rest s => ⟨rfl, rfl⟩

end Sys2Proof.Machine
end

section
/-! The scan of PUTS and PUTSP (44_trap.md R216, R218, R221): the spec's loop, its frame, and what it prints for a string in plain cells. -/

namespace Sys2Proof.Machine

variable {unpack : Word → List Byte × Bool}

/-! ### The spec's loop -/

theorem scanEnds_iff {a : Word} {s t : State} : ScanEnds unpack a s t ↔ ∃ fuel, scanString unpack fuel a s = some t := by
  constructor
  · intro h
    induction h with
    | last hend => exact ⟨1, by rw [scanString_succ, hend]; rfl⟩
    | more hmore _ ih =>
      obtain ⟨fuel, hscan⟩ := ih
      exact ⟨fuel + 1, by rw [scanString_succ, if_pos hmore, hscan]⟩
  · rintro ⟨fuel, h⟩
    induction fuel generalizing a s with
    | zero => cases h
    | succ fuel ih =>
      rw [scanString_succ] at h
      split at h
      next hmore => exact .more hmore (ih h)
      next hend => cases h; exact .last (Bool.eq_false_iff.2 hend)

theorem routineScan_eq_next_iff_scanEnds {s t : State} :
    routineScan unpack s = .next t ↔ ScanEnds unpack (s.reg .r0) s t :=
  routineScan_eq_next.trans scanEnds_iff.symm

theorem routineScan_eq_neverEnds_iff {s : State} :
    routineScan unpack s = .fault .neverEnds ↔ ¬ ∃ t, ScanEnds unpack (s.reg .r0) s t := by
  simp only [← routineScan_eq_next_iff_scanEnds]
  obtain ⟨t, -, -, h⟩ | ⟨-, h⟩ := routineScan_cases (unpack := unpack) s
  · rw [h]; simp
  · rw [h]; simp

/-- Settles O46: the loop ends where some number of reads ends it, and the routine faults where none does. -/
theorem scansAreTheSpecsLoop : Obligations.ScansAreTheSpecsLoop := by
  unfold Obligations.ScansAreTheSpecsLoop
  exact fun s => ⟨fun _ => routineScan_eq_next_iff_scanEnds (s := s.trapEntry), routineScan_eq_neverEnds_iff (s := s.trapEntry),
    fun _ => routineScan_eq_next_iff_scanEnds (s := s.trapEntry), routineScan_eq_neverEnds_iff (s := s.trapEntry)⟩

/-! ### The frame -/

theorem scanString_keys {fuel : Nat} {a : Word} {s t : State} (h : scanString unpack fuel a s = some t) :
    ∃ n, PolledFrom s t n :=
  scanString_keeps (P := fun u => ∃ n, PolledFrom s u n) (fun _ a ⟨_, hn⟩ => ⟨_, hn.memRead a⟩) (fun _ _ hu => hu) h ⟨0, rfl⟩

theorem PolledFrom.of_keys_eq {s s' t : State} {n : Nat} (h : PolledFrom s t n) (hkeys : s.keys = s'.keys) : PolledFrom s' t n := by
  have hafter : ∀ m, keysAfterPolls s m = keysAfterPolls s' m := by
    intro m
    induction m with
    | zero => exact hkeys
    | succ m ih => exact congrArg (fun d => (d.next Config.keyAnswer).2) ih
  exact h.trans (hafter n)

/-- Settles O47: the scan keeps what every read and every write of the output keeps, from the entry on. -/
theorem scanFrame : Obligations.ScanFrame := by
  unfold Obligations.ScanFrame
  intro i s t hi h
  obtain ⟨unpack, hrun⟩ : ∃ unpack, routineScan unpack s.trapEntry = .next t := by
    obtain rfl | rfl := hi
    · exact ⟨_, h⟩
    · exact ⟨_, h⟩
  obtain ⟨fuel, hscan⟩ := routineScan_eq_next.1 hrun
  obtain ⟨hregs, hpc, hnzp, hrun', herr, hstop, hinput⟩ := scanString_frame hscan
  have hreg : ∀ r, t.reg r = s.trapEntry.reg r := fun r => congrArg (·.get r) hregs
  obtain ⟨n, hpolls⟩ := scanString_keys hscan
  exact ⟨hreg .r7, fun r hr => (hreg r).trans (s.trapEntry_sameRegsBut r hr), hnzp, hpc, hinput, ⟨hrun', herr, hstop⟩,
    (scanString_out hscan :), ⟨n, hpolls.of_keys_eq rfl⟩, fun hm a ha => (scanString_mem hscan hm).2 a ha⟩

/-! ### Strings in plain cells -/

/-- The cell `i` places after the address `a`, which wraps at the top of memory. -/
def State.cellAt (s : State) (a : Word) (i : Nat) : Word := s.cell (a + BitVec.ofNat 16 i)

theorem add_ofNat_succ (a : Word) (i : Nat) : a + 1#16 + BitVec.ofNat 16 i = a + BitVec.ofNat 16 (i + 1) := by
  rw [BitVec.add_assoc, BitVec.ofNat_add, BitVec.add_comm (1#16)]

theorem State.cellAt_succ (s : State) (a : Word) (i : Nat) : s.cellAt (a + 1#16) i = s.cellAt a (i + 1) :=
  congrArg s.cell (add_ofNat_succ a i)

theorem State.memRead_eq_cellAt {s : State} {a : Word} (h : Plain (a + BitVec.ofNat 16 0)) : s.memRead a = (s.cellAt a 0, s) := by
  have ha : a + BitVec.ofNat 16 0 = a := BitVec.add_zero a
  rw [State.cellAt, ha]
  exact s.memRead_plain (ha ▸ h)

theorem State.consoleWrite_consoleWrite (s : State) (bs cs : List Byte) :
    (s.consoleWrite bs).consoleWrite cs = s.consoleWrite (bs ++ cs) := by
  simp only [State.consoleWrite, List.append_assoc]

/-- The bytes of the `n` Words from `a` on, and of the Word after them. -/
def State.unpacked (unpack : Word → List Byte × Bool) (s : State) (a : Word) (n : Nat) : List Byte :=
  (List.range n).flatMap (fun i => (unpack (s.cellAt a i)).1) ++ (unpack (s.cellAt a n)).1

theorem State.unpacked_succ (s : State) (a : Word) (n : Nat) :
    s.unpacked unpack a (n + 1) = (unpack (s.cellAt a 0)).1 ++ s.unpacked unpack (a + 1#16) n := by
  simp only [State.unpacked, List.range_succ_eq_map, List.flatMap_cons, List.flatMap_map, State.cellAt_succ, List.append_assoc]

/-- A scan over plain cells reads up to the first Word that ends it. -/
theorem scanString_plain {n : Nat} {a : Word} {s : State} (hplain : ∀ i ≤ n, Plain (a + BitVec.ofNat 16 i))
    (hmore : ∀ i < n, (unpack (s.cellAt a i)).2 = true) (hend : (unpack (s.cellAt a n)).2 = false) :
    scanString unpack (n + 1) a s = some (s.consoleWrite (s.unpacked unpack a n)) := by
  have hread : s.memRead a = (s.cellAt a 0, s) := State.memRead_eq_cellAt (hplain 0 (Nat.zero_le n))
  induction n generalizing a s with
  | zero =>
    rw [scanString_succ, hread, hend]
    rfl
  | succ n ih =>
    have hplain' : ∀ i ≤ n, Plain (a + 1#16 + BitVec.ofNat 16 i) := fun i hi => by
      rw [add_ofNat_succ]
      exact hplain (i + 1) (Nat.succ_le_succ hi)
    rw [scanString_succ, hread, if_pos (hmore 0 (Nat.succ_pos n)), State.unpacked_succ, ← State.consoleWrite_consoleWrite]
    refine ih hplain' (fun i hi => ?_) ?_ (State.memRead_eq_cellAt (hplain' 0 (Nat.zero_le n)))
    · exact (s.cellAt_succ a i).symm ▸ hmore (i + 1) (Nat.succ_lt_succ hi)
    · exact (s.cellAt_succ a n).symm ▸ hend

/-- A routine that scans such a string writes it and nothing else. -/
theorem routineScan_plain {n : Nat} {s : State} (hplain : ∀ i ≤ n, Plain (s.reg .r0 + BitVec.ofNat 16 i))
    (hmore : ∀ i < n, (unpack (s.cellAt (s.reg .r0) i)).2 = true) (hend : (unpack (s.cellAt (s.reg .r0) n)).2 = false) :
    routineScan unpack s.trapEntry = .next (s.trapEntry.consoleWrite (s.unpacked unpack (s.reg .r0) n)) :=
  routineScan_eq_next.2 ⟨n + 1, scanString_plain (s := s.trapEntry) hplain hmore hend⟩

/-! ### One Word of a string -/

theorem unpackPuts_of_ne_zero {w : Word} (h : w ≠ 0#16) : unpackPuts w = ([lowByte w], true) := if_neg h

theorem unpackPuts_zero : unpackPuts 0#16 = ([], false) := rfl

theorem unpackPutsp_of_ne_zero {w : Word} (hlow : lowByte w ≠ 0#8) (hhigh : highByte w ≠ 0#8) :
    unpackPutsp w = ([lowByte w, highByte w], true) := by
  rw [unpackPutsp, if_neg hlow, if_neg hhigh]

theorem unpackPutsp_of_zero_byte {w : Word} (h : lowByte w = 0#8 ∨ highByte w = 0#8) :
    unpackPutsp w = (if lowByte w = 0#8 then [] else [lowByte w], false) := by
  unfold unpackPutsp
  split_ifs with hlow hhigh
  · rfl
  · rfl
  · exact absurd h (not_or.2 ⟨hlow, hhigh⟩)

theorem State.unpacked_puts {s : State} {a : Word} {n : Nat} (hmore : ∀ i < n, s.cellAt a i ≠ 0#16) (hend : s.cellAt a n = 0#16) :
    s.unpacked unpackPuts a n = (List.range n).map fun i => (s.cellAt a i).setWidth 8 := by
  rw [State.unpacked, hend, unpackPuts_zero, List.append_nil, List.map_eq_flatMap]
  refine List.flatMap_congr fun i hi => ?_
  rw [unpackPuts_of_ne_zero (hmore i (List.mem_range.1 hi)), lowByte_eq_setWidth]

theorem State.unpacked_putsp {s : State} {a : Word} {n : Nat}
    (hmore : ∀ i < n, lowByte (s.cellAt a i) ≠ 0#8 ∧ highByte (s.cellAt a i) ≠ 0#8)
    (hend : lowByte (s.cellAt a n) = 0#8 ∨ highByte (s.cellAt a n) = 0#8) :
    s.unpacked unpackPutsp a n = (List.range n).flatMap (fun i => [lowByte (s.cellAt a i), highByte (s.cellAt a i)]) ++
      if lowByte (s.cellAt a n) = 0#8 then [] else [lowByte (s.cellAt a n)] := by
  rw [State.unpacked, unpackPutsp_of_zero_byte hend]
  refine congrArg (· ++ _) (List.flatMap_congr fun i hi => ?_)
  obtain ⟨hlow, hhigh⟩ := hmore i (List.mem_range.1 hi)
  rw [unpackPutsp_of_ne_zero hlow hhigh]

/-! ### The statements on strings -/

/-- Settles O44: a Word that is not zero goes on with its low byte, and the zero Word ends with none. -/
theorem putsWritesTheString : Obligations.PutsWritesTheString := by
  unfold Obligations.PutsWritesTheString
  intro s n hplain hmore hend
  refine ⟨_, routineScan_plain hplain (fun i hi => ?_) ?_, s.trapEntry_consoleWrite_prints ?_⟩
  · exact congrArg Prod.snd (unpackPuts_of_ne_zero (hmore i hi))
  · exact congrArg (fun w => (unpackPuts w).2) hend
  · exact congrArg (s.out ++ ·) (State.unpacked_puts hmore hend)

/-- Settles O45: a Word of two bytes that are not zero goes on with both, and a zero byte ends with what comes before it. -/
theorem putspWritesThePackedString : Obligations.PutspWritesThePackedString := by
  unfold Obligations.PutspWritesThePackedString
  intro s n hplain hmore hend
  refine ⟨_, routineScan_plain hplain (fun i hi => ?_) ?_, s.trapEntry_consoleWrite_prints ?_⟩
  · obtain ⟨hlow, hhigh⟩ := hmore i hi
    exact congrArg Prod.snd (unpackPutsp_of_ne_zero hlow hhigh)
  · exact congrArg Prod.snd (unpackPutsp_of_zero_byte hend)
  · exact (congrArg (s.out ++ ·) (State.unpacked_putsp hmore hend)).trans (List.append_assoc _ _ _).symm

end Sys2Proof.Machine
end

section
/-! TRAP with a code of the table (44_trap.md, The TRAP instruction; 92_eei_decisions.md D6, D7). -/

namespace Sys2Proof.Machine

/-- A string that ends at once in a plain cell. -/
theorem routineScan_of_empty {unpack : Word → List Byte × Bool} (hzero : (unpack 0#16).2 = false) {s : State}
    (hplain : Plain (s.reg .r0)) (hcell : s.cell (s.reg .r0) = 0#16) :
    ∃ bs, routineScan unpack s.trapEntry = .next (s.trapEntry.consoleWrite bs) := by
  have haddr : s.reg .r0 + BitVec.ofNat 16 0 = s.reg .r0 := BitVec.add_zero _
  refine ⟨_, routineScan_plain (n := 0) (fun i hi => ?_) (fun i hi => absurd hi (Nat.not_lt_zero i)) ?_⟩
  · rwa [Nat.le_zero.1 hi, haddr]
  · rwa [State.cellAt, haddr, hcell]

/-- Settles O49: the codes of the table select the routines, and each routine that ends leaves the entry's link, PC and memory. -/
theorem trapCompletesAndReturns : Obligations.TrapCompletesAndReturns := by
  unfold Obligations.TrapCompletesAndReturns
  refine ⟨fun x s => ⟨rfl, rfl, rfl, rfl, rfl, rfl⟩, ?_⟩
  rintro x v s (rfl | rfl | ⟨hv, hinput⟩ | ⟨hv, hplain, hcell⟩)
  · exact ⟨_, exec_out s, rfl, rfl, s.trapEntry_sameMemory, rfl, rfl⟩
  · exact ⟨_, exec_halt s, rfl, rfl, s.trapEntry_sameMemory, rfl, rfl⟩
  · obtain ⟨c, hc⟩ := Option.ne_none_iff_exists'.1 hinput
    obtain rfl | rfl := hv
    · exact ⟨_, exec_getc_of_input hc, rfl, rfl, s.trapEntry_sameMemory, rfl, rfl⟩
    · exact ⟨_, exec_inChar_of_input hc, rfl, rfl, s.trapEntry_sameMemory, rfl, rfl⟩
  · obtain rfl | rfl := hv
    · obtain ⟨bs, hrun⟩ := routineScan_of_empty (unpack := unpackPuts) rfl hplain hcell
      exact ⟨_, hrun, rfl, rfl, s.trapEntry_sameMemory, rfl, rfl⟩
    · obtain ⟨bs, hrun⟩ := routineScan_of_empty (unpack := unpackPutsp) rfl hplain hcell
      exact ⟨_, hrun, rfl, rfl, s.trapEntry_sameMemory, rfl, rfl⟩

end Sys2Proof.Machine
end

section
/-! The output stream is written and never read (10_state.md, Environment traces): every operation commutes with a change of it. -/

namespace Sys2Proof.Machine

/-- The state with another output stream. -/
def State.withOut (s : State) (o : List Byte) : State := { s with out := o }

variable {s t : State}

/-! ### The operations -/

@[simp] theorem pcRelative_withOut {k : Nat} (s : State) (o : List Byte) (off : BitVec k) :
    pcRelative (s.withOut o) off = pcRelative s off := rfl

@[simp] theorem baseOffset_withOut (s : State) (o : List Byte) (base : Reg) (off6 : BitVec 6) :
    baseOffset (s.withOut o) base off6 = baseOffset s base off6 := rfl

theorem State.poll_withOut (s : State) (o : List Byte) : (s.withOut o).poll = s.poll.withOut o := by
  have hnext : (s.withOut o).nextKey = s.nextKey := rfl
  unfold State.poll State.keyPoll
  rw [hnext]
  cases s.nextKey <;> rfl

@[simp] theorem State.memRead_withOut (s : State) (o : List Byte) (a : Word) :
    (s.withOut o).memRead a = ((s.memRead a).1, (s.memRead a).2.withOut o) := by
  unfold State.memRead
  rw [State.poll_withOut]
  split_ifs <;> rfl

/-- A scan reads the same Words and so ends after the same one. -/
theorem scanString_withOut {unpack : Word → List Byte × Bool} {fuel : Nat} {a : Word} (h : scanString unpack fuel a s = some t)
    (o : List Byte) : ∃ o', scanString unpack fuel a (s.withOut o) = some (t.withOut o') := by
  induction fuel generalizing a s o with
  | zero => cases h
  | succ fuel ih =>
    rw [scanString_succ] at h
    rw [scanString_succ, State.memRead_withOut]
    split at h
    next hmore =>
      rw [if_pos hmore]
      exact ih h (o ++ (unpack (s.memRead a).1).1)
    next hend =>
      rw [if_neg hend, ← Option.some.inj h]
      exact ⟨o ++ (unpack (s.memRead a).1).1, rfl⟩

/-! ### The routines -/

theorem execGetc_withOut (h : execGetc s = .next t) (o : List Byte) :
    ∃ o', execGetc (s.withOut o) = .next (t.withOut o') := by
  cases hinput : s.nextInput with
  | none => cases (exec_getc_of_no_input hinput).symm.trans h
  | some c =>
    cases (exec_getc_of_input hinput).symm.trans h
    exact ⟨_, exec_getc_of_input (s := s.withOut o) hinput⟩

theorem execIn_withOut (h : execIn s = .next t) (o : List Byte) : ∃ o', execIn (s.withOut o) = .next (t.withOut o') := by
  cases hinput : s.nextInput with
  | none => cases (exec_inChar_of_no_input hinput).symm.trans h
  | some c =>
    cases (exec_inChar_of_input hinput).symm.trans h
    exact ⟨_, exec_inChar_of_input (s := s.withOut o) hinput⟩

theorem routineScan_withOut {unpack : Word → List Byte × Bool} (h : routineScan unpack s = .next t) (o : List Byte) :
    ∃ o', routineScan unpack (s.withOut o) = .next (t.withOut o') := by
  obtain ⟨fuel, hscan⟩ := routineScan_eq_next.1 h
  obtain ⟨o', hscan'⟩ := scanString_withOut hscan o
  exact ⟨o', routineScan_eq_next.2 ⟨fuel, hscan'⟩⟩

theorem execOut_withOut (h : execOut s = .next t) (o : List Byte) : ∃ o', execOut (s.withOut o) = .next (t.withOut o') := by
  cases h
  exact ⟨_, rfl⟩

theorem execHalt_withOut (h : execHalt s = .next t) (o : List Byte) : ∃ o', execHalt (s.withOut o) = .next (t.withOut o') := by
  cases h
  exact ⟨_, rfl⟩

theorem execTrap_withOut {x : BitVec 4} {v : BitVec 8} (h : execTrap x v s = .next t) (o : List Byte) :
    ∃ o', execTrap x v (s.withOut o) = .next (t.withOut o') := by
  obtain ⟨rfl, hrun⟩ | ⟨rfl, hrun⟩ | ⟨rfl, hrun⟩ | ⟨rfl, hrun⟩ | ⟨rfl, hrun⟩ | ⟨rfl, hrun⟩ | ⟨hv, hrun⟩ := execTrap_cases x v s
  · exact execGetc_withOut (hrun.symm.trans h) o
  · exact execOut_withOut (hrun.symm.trans h) o
  · exact routineScan_withOut (hrun.symm.trans h) o
  · exact execIn_withOut (hrun.symm.trans h) o
  · exact routineScan_withOut (hrun.symm.trans h) o
  · exact execHalt_withOut (hrun.symm.trans h) o
  · cases hrun.symm.trans h
    exact ⟨o, execTrap_illegal x (s.withOut o) hv⟩

/-! ### Every instruction -/

theorem exec_withOut {i : Instr} (h : exec i s = .next t) (o : List Byte) :
    ∃ o', exec i (s.withOut o) = .next (t.withOut o') := by
  cases i with
  | br n z p off9 =>
    by_cases htest : branchTest n z p s.nzp = true
    · cases (exec_br_taken off9 htest).symm.trans h
      exact ⟨o, exec_br_taken (s := s.withOut o) off9 htest⟩
    · cases (exec_br_not_taken off9 htest).symm.trans h
      exact ⟨o, exec_br_not_taken (s := s.withOut o) off9 htest⟩
  | ld | ldi | ldr | sti =>
    cases h
    exact ⟨o, by simp only [exec, execLd, execLdi, execLdr, execSti, indirect_eq, pcRelative_withOut, baseOffset_withOut,
      State.memRead_withOut]; rfl⟩
  | trap => exact execTrap_withOut h o
  | getc => exact execGetc_withOut h o
  | inChar => exact execIn_withOut h o
  | puts | putsp => exact routineScan_withOut h o
  | out => exact execOut_withOut h o
  | halt => exact execHalt_withOut h o
  | _ =>
    cases h
    exact ⟨o, rfl⟩

/-- Settles O56: every operation commutes with a change of the output, and so does every instruction. -/
theorem outputIsNeverRead : Obligations.OutputIsNeverRead := by
  unfold Obligations.OutputIsNeverRead
  intro i s t o h
  obtain ⟨o', h'⟩ := exec_withOut h o
  exact ⟨_, h', rfl⟩

end Sys2Proof.Machine
end

section
/-! The launch (70_reset_and_hazards.md R271 to R273) and the end of a run (40_fetch_cycle.md R130, 60_exceptions.md R252). -/

namespace Sys2Proof.Machine

/-! ### The image in memory -/

theorem storeImage_wf (a : Word) (ws : List Word) {m : Memory} (hm : m.wf) : (storeImage a ws m).wf := by
  induction ws generalizing a m with
  | nil => exact hm
  | cons w ws ih => exact ih (a + 1#16) (Memory.wf_write hm a w)

/-- An image of at most 65536 Words does not overwrite itself, wherever it wraps. -/
theorem read_storeImage {a : Word} {ws : List Word} {m : Memory} (hm : m.wf) (hlen : ws.length ≤ 65536) (b : Word) :
    (storeImage a ws m).read b = ws.getD (b - a).toNat (m.read b) := by
  induction ws generalizing a m with
  | nil => rfl
  | cons w ws ih =>
    have hlen' : ws.length < 65536 := hlen
    rw [storeImage, ih (Memory.wf_write hm a w) (Nat.le_of_lt hlen'), Memory.read_write hm]
    by_cases hb : b = a
    · have hfar : (b - (a + 1#16)).toNat = 65535 := by rw [hb]; bv_omega
      have hnear : (b - a).toNat = 0 := by rw [hb]; bv_omega
      rw [if_pos hb, hfar, hnear, List.getD_eq_default _ _ (by omega)]
      rfl
    · have hnext : (b - a).toNat = (b - (a + 1#16)).toNat + 1 := by bv_omega
      rw [if_neg hb, hnext]
      rfl

theorem State.launch_of_fits {origin : Word} {image : List Word} (h : origin.toNat + image.length ≤ 65536) :
    State.launch origin image = some { State.reset with pc := origin, mem := storeImage origin image [] } :=
  if_pos h

theorem State.launch_of_not_fits {origin : Word} {image : List Word} (h : ¬ origin.toNat + image.length ≤ 65536) :
    State.launch origin image = none :=
  if_neg h

theorem State.reg_reset (r : Reg) : State.reset.reg r = 0#16 := by
  cases r <;> rfl

theorem read_storeImage_of_fits {origin : Word} {image : List Word} (h : origin.toNat + image.length ≤ 65536) (a : Word) :
    (storeImage origin image []).read a =
      if origin.toNat ≤ a.toNat then image.getD (a.toNat - origin.toNat) 0#16 else 0#16 := by
  rw [read_storeImage rfl (by omega)]
  split_ifs with ha
  · rw [BitVec.toNat_sub_of_le ha]
    rfl
  · have hbelow : image.length ≤ (a - origin).toNat := by bv_omega
    exact List.getD_eq_default _ _ hbelow

theorem State.launch_inv {origin : Word} {image : List Word} {s : State} (h : State.launch origin image = some s) : s.Inv := by
  obtain ⟨hwf, hrest⟩ := State.reset_inv
  by_cases hfits : origin.toNat + image.length ≤ 65536
  · rw [← Option.some.inj ((State.launch_of_fits hfits).symm.trans h)]
    exact ⟨storeImage_wf origin image hwf, hrest⟩
  · cases (State.launch_of_not_fits hfits).symm.trans h

/-! ### The object file -/

theorem highByte_append_lowByte (w : Word) : (highByte w ++ lowByte w : Word) = w :=
  BitVec.extractLsb'_append_extractLsb' (w := 8) (len := 8)

theorem wordsOfBytes_flatMap (ws : List Word) :
    wordsOfBytes (ws.flatMap fun w => [highByte w, lowByte w]) = some ws := by
  induction ws with
  | nil => rfl
  | cons w ws ih =>
    rw [List.flatMap_cons, List.cons_append, List.cons_append, List.nil_append, wordsOfBytes, ih, Option.map_some,
      highByte_append_lowByte]

theorem wordsOfBytes_of_odd {bytes : List Byte} (h : bytes.length % 2 = 1) : wordsOfBytes bytes = none := by
  induction bytes using wordsOfBytes.induct with
  | case1 => cases h
  | case2 => rfl
  | case3 hi lo rest ih =>
    have hrest : rest.length % 2 = 1 := by simpa [Nat.add_assoc] using h
    rw [wordsOfBytes, ih hrest, Option.map_none]

/-! ### The statements -/

/-- Settles O57: the cells of the image are at their distance from the origin, and the rest of the launch state is reset's. -/
theorem launchState : Obligations.LaunchState := by
  unfold Obligations.LaunchState
  exact fun origin image => ⟨fun h => State.launch_of_not_fits (Nat.not_le.2 h), fun h =>
    ⟨_, State.launch_of_fits h, State.reg_reset, rfl, rfl, rfl, rfl, rfl, rfl, read_storeImage_of_fits h⟩⟩

/-- Settles O58: two bytes of a Word make it again, and a file of odd length or none has no Words for a launch. -/
theorem loaderReadsBigEndian : Obligations.LoaderReadsBigEndian := by
  unfold Obligations.LoaderReadsBigEndian
  refine ⟨fun origin image => ?_, fun bytes h => ?_⟩
  · have hwords := wordsOfBytes_flatMap (origin :: image)
    unfold highByte lowByte at hwords
    rw [State.loadObject, hwords]
  · obtain hodd | rfl := h
    · rw [State.loadObject, wordsOfBytes_of_odd hodd]
    · rfl

/-- Settles O54: the launch state meets the invariant, and steps and stop requests keep it. -/
theorem launchedRunsMeetTheInvariant : Obligations.LaunchedRunsMeetTheInvariant := by
  unfold Obligations.LaunchedRunsMeetTheInvariant
  exact fun _ _ _ _ hlaunch h => (State.launch_inv hlaunch).reaches h

/-- Settles O59: reset writes each field out, and its memory has no entry. -/
theorem resetState : Obligations.ResetState := by
  unfold Obligations.ResetState
  exact ⟨State.reg_reset, rfl, rfl, fun _ => rfl, rfl, rfl, rfl, rfl⟩

/-- Settles O60: the error status is one more than a number, and the load's is the same. -/
theorem outcomeAndExitStatus : Obligations.OutcomeAndExitStatus := by
  unfold Obligations.OutcomeAndExitStatus
  exact ⟨fun _ => rfl, rfl, rfl, errorExitStatus, rfl, Nat.succ_ne_zero _, rfl⟩

end Sys2Proof.Machine
end
